-- ==== Sys2Proof/Word.lean ====
section
/-! DEFINITION. The word types of the hardware (spec/00_scope.md R4: XLEN = ALEN = 64, ILEN = 32, NREGS = 32). -/

namespace Sys2Proof

/-- The unit of addressing, 8 bits (R24). -/
abbrev Byte := BitVec 8

/-- A register, the program counter or an address: XLEN = ALEN = 64 bits (R4, R10, R14, R24). -/
abbrev Word := BitVec 64

/-- An instruction word, ILEN = 32 bits (R60). -/
abbrev InstrWord := BitVec 32

/-- The index of a general register; every value of a 5-bit register field names one (R10, R62). -/
abbrev Reg := Fin 32

end Sys2Proof
end

