-- ==== Sys2Proof/Config.lean ====
section
/-! DEFINITION. The parameters of spec/00_scope.md R4 that a model fixes: DECODE_MODE, SP_INDEX, and the values
State.reset takes for the parameters R4 leaves OPEN. The OPEN parameters themselves are arguments of
Machine/Loader.lean's loadProcess, so that a claim can quantify over them. -/

namespace Sys2Proof

/-- DECODE_MODE (R65, R66): whether the decode table's masks include funct7. -/
inductive DecodeMode where
  /-- Every mask is 0xFE00707F; all ten handlers are reachable (R65). -/
  | exact
  /-- Every mask is 0x0000707F; sub and sra are shadowed by add and srl, whose handlers re-check funct7 (R66). -/
  | general
deriving DecidableEq, Repr

namespace Config

/-- DECODE_MODE = exact, the value R4 and R65 take (spec decision D1). DESIGN CHOICE of the spec, unsafe if the real
code is general: log entry 1. -/
def decodeMode : DecodeMode := .exact

/-- SP_INDEX = 2 (R4, R172, spec decision D14). PRESUMED by the spec, unsafe: log entry 3. -/
def spIndex : Reg := 2

/-- STACK_LIMIT when the host's limit is unbounded: 2 MiB (R4, R181). -/
def stackDefault : Nat := 2097152

/-- ENTRY in State.reset, from the spec's worked launch (95_test_vectors.md P4). DESIGN CHOICE, unsafe: log entry 2. -/
def entry : Word := 0x0000000000400000

/-- STACK_BASE in State.reset, from the spec's worked launch (95_test_vectors.md P4). DESIGN CHOICE, unsafe: log entry 2. -/
def stackBase : Word := 0x00007FFFFFE00000

/-- STACK_LIMIT in State.reset: the value for an unbounded host limit. DESIGN CHOICE, unsafe: log entry 2. -/
def stackLimit : Nat := stackDefault

end Config

end Sys2Proof
end

