-- ==== Sys2Proof/Syntax.lean ====
section
/-! DEFINITION. The ten instructions of spec/opcode_table.json (R1, R83), each carrying the fields of the word its handler
is run on. A handler re-validates funct7 (R85) and may be paired with a word decode did not return it for (R87), so
funct7 is one of the fields; WellFormed.lean says when it is the required one. -/

namespace Sys2Proof

/-- The fields of an R-type word that a handler reads (R62, R84); opcode and funct3 select the handler and are not
looked at again (R87). -/
structure RFields where
  funct7 : BitVec 7
  rs2 : Reg
  rs1 : Reg
  rd : Reg
deriving DecidableEq, Repr

/-- One constructor per row of spec/opcode_table.json: a handler and the fields it runs on. -/
inductive Instr where
  /-- ADD (R100). -/
  | add (f : RFields)
  /-- SUB (R101). -/
  | sub (f : RFields)
  /-- SLL (R130). -/
  | sll (f : RFields)
  /-- SLT (R110). -/
  | slt (f : RFields)
  /-- SLTU (R111). -/
  | sltu (f : RFields)
  /-- XOR (R122). -/
  | xor (f : RFields)
  /-- SRL (R131). -/
  | srl (f : RFields)
  /-- SRA (R132). -/
  | sra (f : RFields)
  /-- OR (R121). -/
  | or (f : RFields)
  /-- AND (R120). -/
  | and (f : RFields)
deriving DecidableEq, Repr

end Sys2Proof
end

