-- ==== Sys2Proof/WellFormed.lean ====
section
/-! DEFINITION. When an instruction is one the set has: its funct7 is the value its operation requires (R64, R83, R85).
No other field has an illegal value (R62). -/

namespace Sys2Proof

/-- The fields of the word the instruction runs on. -/
def Instr.fields : Instr → RFields
  | .add f => f
  | .sub f => f
  | .sll f => f
  | .slt f => f
  | .sltu f => f
  | .xor f => f
  | .srl f => f
  | .sra f => f
  | .or f => f
  | .and f => f

/-- The required funct7 of the operation (R83). -/
def Instr.requiredFunct7 : Instr → BitVec 7
  | .add _ => 0x00
  | .sub _ => 0x20
  | .sll _ => 0x00
  | .slt _ => 0x00
  | .sltu _ => 0x00
  | .xor _ => 0x00
  | .srl _ => 0x00
  | .sra _ => 0x20
  | .or _ => 0x00
  | .and _ => 0x00

/-- The one check: funct7, all 7 bits, is the required value (R85). -/
def Instr.wf (i : Instr) : Bool := i.fields.funct7 == i.requiredFunct7

end Sys2Proof
end

