-- ==== Sys2Proof/Decode.lean ====
section
/-! DEFINITION. Byte order, field extraction, the decode table in both DECODE_MODEs, the decoder and the encoder
(spec/30_encoding.md R60 to R70, spec/20_memory.md R40, R41). -/

namespace Sys2Proof

/-- Little-endian assembly: the first byte is the least significant (R40, R41). The ONE place the byte order is decided,
with leBytes. -/
def leNat : List Byte → Nat
  | [] => 0
  | b :: bs => b.toNat + 256 * leNat bs

/-- The little-endian decomposition of the low n bytes of a value, lowest byte first (R35, R40). -/
def leBytes : Nat → Nat → List Byte
  | 0, _ => []
  | n + 1, v => BitVec.ofNat 8 v :: leBytes n (v / 256)

/-- The 32-bit word of its bytes, the first of them bits 7 to 0 (R41). -/
def wordOfBytes (bs : List Byte) : InstrWord := BitVec.ofNat 32 (leNat bs)

/-- Field extraction (R62). -/
def rd (w : InstrWord) : Reg := (w.extractLsb' 7 5).toFin

/-- Field extraction (R62). -/
def rs1 (w : InstrWord) : Reg := (w.extractLsb' 15 5).toFin

/-- Field extraction (R62). -/
def rs2 (w : InstrWord) : Reg := (w.extractLsb' 20 5).toFin

/-- Field extraction (R62). -/
def funct7 (w : InstrWord) : BitVec 7 := w.extractLsb' 25 7

/-- Field extraction (R62). -/
def funct3 (w : InstrWord) : BitVec 3 := w.extractLsb' 12 3

/-- Field extraction (R62). -/
def opcode (w : InstrWord) : BitVec 7 := w.extractLsb' 0 7

/-- The fields every handler takes from its word (R84). -/
def fieldsOf (w : InstrWord) : RFields :=
  { funct7 := funct7 w, rs2 := rs2 w, rs1 := rs1 w, rd := rd w }

/-- The ten handlers decode can return, one per operation (R83). -/
inductive Handler where
  | add
  | sub
  | sll
  | slt
  | sltu
  | xor
  | srl
  | sra
  | or
  | and
deriving DecidableEq, Repr

/-- A handler paired with a word (R84, R87): what execute is called on. -/
def Handler.on (h : Handler) (w : InstrWord) : Instr :=
  match h with
  | .add => .add (fieldsOf w)
  | .sub => .sub (fieldsOf w)
  | .sll => .sll (fieldsOf w)
  | .slt => .slt (fieldsOf w)
  | .sltu => .sltu (fieldsOf w)
  | .xor => .xor (fieldsOf w)
  | .srl => .srl (fieldsOf w)
  | .sra => .sra (fieldsOf w)
  | .or => .or (fieldsOf w)
  | .and => .and (fieldsOf w)

/-- An entry of the decode table (R65). -/
structure DecodeRow where
  mask : InstrWord
  pattern : InstrWord
  handler : Handler
deriving DecidableEq, Repr

/-- The exact table, in its priority order: funct7, funct3 and opcode under one mask (R64, R65). -/
def exactTable : List DecodeRow :=
  [ { mask := 0xFE00707F, pattern := 0x00000033, handler := .add },
    { mask := 0xFE00707F, pattern := 0x40000033, handler := .sub },
    { mask := 0xFE00707F, pattern := 0x00001033, handler := .sll },
    { mask := 0xFE00707F, pattern := 0x00002033, handler := .slt },
    { mask := 0xFE00707F, pattern := 0x00003033, handler := .sltu },
    { mask := 0xFE00707F, pattern := 0x00004033, handler := .xor },
    { mask := 0xFE00707F, pattern := 0x00005033, handler := .srl },
    { mask := 0xFE00707F, pattern := 0x40005033, handler := .sra },
    { mask := 0xFE00707F, pattern := 0x00006033, handler := .or },
    { mask := 0xFE00707F, pattern := 0x00007033, handler := .and } ]

/-- The general table: funct7 is cleared from every mask and pattern, the order stays (R66). -/
def generalTable : List DecodeRow :=
  exactTable.map fun r => { r with mask := 0x0000707F, pattern := r.pattern &&& 0x0000707F }

/-- The table of a DECODE_MODE (R65, R66). -/
def decodeTable : DecodeMode → List DecodeRow
  | .exact => exactTable
  | .general => generalTable

/-- Whether an entry matches a word (R65). -/
def DecodeRow.hits (r : DecodeRow) (w : InstrWord) : Bool := w &&& r.mask == r.pattern

/-- The first handler whose mask applied to the word equals its pattern, if there is one (R65, R82). -/
def findHandler (m : DecodeMode) (w : InstrWord) : Option Handler :=
  ((decodeTable m).find? (·.hits w)).map (·.handler)

/-- Why decode gives no handler. -/
inductive DecodeReject where
  /-- No entry of the table matches the word (R65, R67, R143). Raised by decode; safe: the spec's own outcome. -/
  | unsupported
deriving DecidableEq, Repr

/-- decode of a 32-bit word (R82): a pure function of the word; every word no entry matches is rejected (R67). -/
def decode (m : DecodeMode) (w : InstrWord) : Except DecodeReject Instr :=
  match findHandler m w with
  | some h => .ok (h.on w)
  | none => .error .unsupported

/-- decode on a stream of bytes: the next four, little-endian, are the word (R41, R60), and the rest is returned.
Fewer than four bytes are no instruction word. -/
def decodeBytes (m : DecodeMode) : List Byte → Option (Except DecodeReject Instr × List Byte)
  | b0 :: b1 :: b2 :: b3 :: rest => some (decode m (wordOfBytes [b0, b1, b2, b3]), rest)
  | _ => none

/-- The instruction this decoder reads from a row of spec/opcode_table.json: the word's four bytes are laid out
little-endian, every bit above nbits zero, and decoded in the mode the spec takes. -/
def decodeTableWord (nbits w : Nat) : Option Instr :=
  match decodeBytes Config.decodeMode (leBytes 4 (w % 2 ^ nbits)) with
  | some (.ok i, _) => some i
  | _ => none

/-- The major opcode of all ten instructions (R64; the spec's general knowledge G1, UNVERIFIED: log entry 26). -/
def opcodeOP : BitVec 7 := 0b0110011

/-- The operation selector of each instruction (R64; the spec's general knowledge G2, UNVERIFIED: log entry 26). -/
def Instr.funct3 : Instr → BitVec 3
  | .add _ => 0b000
  | .sub _ => 0b000
  | .sll _ => 0b001
  | .slt _ => 0b010
  | .sltu _ => 0b011
  | .xor _ => 0b100
  | .srl _ => 0b101
  | .sra _ => 0b101
  | .or _ => 0b110
  | .and _ => 0b111

/-- The word of given fields: funct7, rs2, rs1, funct3, rd, opcode from bit 31 down (R61, R64). -/
def encodeFields (f : RFields) (f3 : BitVec 3) (op : BitVec 7) : InstrWord :=
  f.funct7 ++ BitVec.ofFin (w := 5) f.rs2 ++ BitVec.ofFin (w := 5) f.rs1 ++ f3 ++ BitVec.ofFin (w := 5) f.rd ++ op

/-- The word of an instruction (R64). -/
def encode (i : Instr) : InstrWord := encodeFields i.fields i.funct3 opcodeOP

/-- The bytes of an instruction as they lie in memory from the lowest address (R41). -/
def encodeBytes (i : Instr) : List Byte := leBytes 4 (encode i).toNat

end Sys2Proof
end

