-- ==== Sys2Proof/Machine/State.lean ====
section
/-! DEFINITION. The state of one Process (spec/10_state.md), the reasons a step or a host operation can stop, and the
state right after reset (the launch state, R27 and R170 to R176). -/

namespace Sys2Proof.Machine

/-- A permission set, a subset of readable, writable, executable (R21). The empty set is ruled out by State.wf. -/
structure Perm where
  r : Bool
  w : Bool
  x : Bool
deriving DecidableEq, Repr

/-- An entry of the segment table: start, length and permissions (R20). It covers [start, start + length). Its byte
buffer is the part of State.mem at those addresses. -/
structure Segment where
  start : Word
  length : Nat
  perm : Perm
deriving DecidableEq, Repr

/-- The bytes of all segments, as (address, byte) cells: addresses strictly rising, no cell equal to what an unlisted
address of a segment reads as. -/
abbrev Memory := List Host.Cell

/-- The complete architectural state (R27). -/
structure State where
  /-- x1 to x31 in order; x0 has no cell (R12, R25, log entry 17). -/
  regs : Vector Word 31
  /-- The program counter (R14). -/
  pc : Word
  /-- The segment table (R19), in rising order of start. -/
  segs : List Segment
  /-- The byte buffers of all segments (R20). -/
  mem : Memory
deriving DecidableEq, Repr

/-- The four fault kinds of the core, the list the spec closes (R140). A fault is returned to the caller, nothing is
changed, and the run ends (R149, R151). A fault records its kind only (R145): log entry 9. -/
inductive Fault where
  /-- No single segment wholly contains the access window (R141). Raised by fetch, load and store; safe: the spec's own. -/
  | unmapped
  /-- The containing segment lacks a permission the access needs (R142). Raised by fetch, load and store; safe: the spec's own. -/
  | permissionDenied
  /-- No decode-table entry matches the word (R143). Raised by step for decode; safe: the spec's own. -/
  | unsupported
  /-- The word's funct7 is not the handler's required value (R144). Raised by every handler; safe: the spec's own. -/
  | unsupportedVariant
deriving DecidableEq, Repr

/-- Uses of an interface outside the domain the spec gives a meaning to (R7). -/
inductive Refusal where
  /-- An instruction without a meaning in this model. Raised by no arm of exec; safe. -/
  | notModelled (mnemonic : String)
  /-- A load or store whose width is not 8, 16, 32 or 64 bits (R43, spec decision D13: log entry 16). Raised by load
  and store at the host's port; safe. -/
  | widthOutsideDomain (bits : Nat)
  /-- A segment of length 0 or one that passes 2^64 (R22 b, R31, spec decision D8: log entry 12). Raised by
  addSegment; safe. -/
  | illFormedSegment
  /-- A stack base the loader may not draw: its stack overlaps a segment, wraps, or
  is empty (R176, R181, R22 b): log entry 21. Raised by loadProcess; safe. -/
  | stackBaseNotAllowed
deriving DecidableEq, Repr

/-- The errors of add_segment, results of a host operation and not faults of the core (R31, R159). -/
inductive ConfigError where
  /-- The permission bits are empty or hold an undefined bit (R31). Raised by addSegment; safe: the spec's own. -/
  | invalidPermissions
  /-- The range overlaps a segment of the table (R31). Raised by addSegment; safe: the spec's own. -/
  | overlapError
deriving DecidableEq, Repr

/-- The stack segment of State.reset (R27, R174, R181), at the values log entry 2 names. -/
def State.resetStack : Segment :=
  { start := Config.stackBase, length := Config.stackLimit, perm := { r := true, w := true, x := false } }

/-- The machine right after reset: the launch state (R27, R170 to R175) for the launch parameters log entry 2 names and
an executable with no loadable segment (log entry 4). x2 is STACK_BASE + STACK_LIMIT (R172), every other register zero
(R173), pc is ENTRY (R171), and every byte of the stack is zero (R174). -/
def State.reset : State :=
  { regs := (Vector.replicate 31 (0 : Word)).set (Config.spIndex.val - 1)
      (BitVec.ofNat 64 (Config.stackBase.toNat + Config.stackLimit)) (by decide),
    pc := Config.entry,
    segs := [State.resetStack],
    mem := [] }

end Sys2Proof.Machine
end

