-- ==== Sys2Proof/Machine/Ops.lean ====
section
/-! DEFINITION. The operations every instruction shares: register access, the program counter, reporting a fault, and the
sequencing of operations that succeed or fail (spec/10_state.md R12, R15; spec/60_exceptions.md R140, R144, R149). -/

namespace Sys2Proof.Machine

/-- Register read (R12): x0 reads zero, every other index its stored value. The ONE read interface, for instructions
and host alike (R13). -/
def State.readReg (s : State) (i : Reg) : Word :=
  if h : i = 0 then 0 else s.regs[i.val - 1]'(by have := i.isLt; omega)

/-- Register write (R12): a write to x0 is discarded. The ONE write interface, for instructions and host alike (R13). -/
def State.writeReg (s : State) (i : Reg) (v : Word) : State :=
  if h : i = 0 then s else { s with regs := s.regs.set (i.val - 1) v (by have := i.isLt; omega) }

/-- Write the program counter. -/
def State.writePc (s : State) (v : Word) : State := { s with pc := v }

/-- Replace the segment table. -/
def State.withSegs (s : State) (gs : List Segment) : State := { s with segs := gs }

/-- Replace the byte store. -/
def State.withMem (s : State) (m : Memory) : State := { s with mem := m }

/-- The advance of the step: pc <- trunc_64(u(pc) + n), wrapping at 2^64 (R15, R90, R92;
spec decisions D2, D3, DESIGN CHOICE: log entry 8). -/
def State.advancePc (s : State) (n : Nat) : State := s.writePc (BitVec.ofNat 64 (s.pc.toNat + n))

/-- The report of a fault, the hardware's whole exception entry (R149): the kind goes to the caller; no register, status,
mode, pc or byte is written and control goes to no handler. There is no return from it (R152). -/
def raise {α : Type} (r : Fault) : Host.Outcome α Fault Refusal := .fault r

/-- Go on with the value of an operation that succeeded; a failure is passed up unchanged (R7, R149). -/
def andThen {α β φ ρ : Type} (o : Host.Outcome α φ ρ) (k : α → Host.Outcome β φ ρ) : Host.Outcome β φ ρ :=
  match o with
  | .next a => k a
  | .fault r => .fault r
  | .refused r => .refused r

/-- The numeric fault codes; 0 is success (R4 FAULT_CODE, R140; spec decision D5: log entry 9). -/
def Fault.code : Fault → Nat
  | .unmapped => 1
  | .permissionDenied => 2
  | .unsupported => 3
  | .unsupportedVariant => 4

/-- Whether a fault is of the illegal-instruction class, which a claim should not tell apart further (R144). -/
def Fault.illegalInstruction : Fault → Bool
  | .unmapped => false
  | .permissionDenied => false
  | .unsupported => true
  | .unsupportedVariant => true

end Sys2Proof.Machine
end

