-- ==== Sys2Proof/Machine/AddressSpace.lean ====
section
/-! DEFINITION. The address space (spec/20_memory.md): the byte store in its canonical form, the containment and permission
checks, load, store, fetch, add_segment and remove_segment. -/

namespace Sys2Proof.Machine

/-! ## The byte store -/

/-- What a byte no cell lists reads as: 0, the value every buffer is created with (R20, R27, R31): log entry 20. -/
def Memory.unlisted : Byte := 0

/-- The canonical form: addresses strictly rising, no cell that holds the unlisted value. -/
abbrev Memory.wf (m : Memory) : Prop :=
  m.Pairwise (fun c d => c.1 < d.1) ∧ ∀ c ∈ m, c.2 ≠ Memory.unlisted

/-- Read one byte of the store. -/
def Memory.read : Memory → Nat → Byte
  | [], _ => Memory.unlisted
  | c :: m, a => if a = c.1 then c.2 else Memory.read m a

/-- A cell in front of a store, left out when it holds the unlisted value. -/
def Memory.consCell (a : Nat) (b : Byte) (m : Memory) : Memory :=
  if b = Memory.unlisted then m else (a, b) :: m

/-- Write one byte of the store, keeping the canonical form. -/
def Memory.write : Memory → Nat → Byte → Memory
  | [], a, b => Memory.consCell a b []
  | c :: m, a, b =>
    if a < c.1 then Memory.consCell a b (c :: m)
    else if a = c.1 then Memory.consCell a b m
    else c :: Memory.write m a b

/-- The n bytes from address a on, lowest first (R34, R80). -/
def Memory.readBytes (m : Memory) (a : Nat) : Nat → List Byte
  | 0 => []
  | n + 1 => Memory.read m a :: Memory.readBytes m (a + 1) n

/-- Write bytes from address a on, lowest first (R35). -/
def Memory.writeBytes (m : Memory) (a : Nat) : List Byte → Memory
  | [] => m
  | b :: bs => Memory.writeBytes (Memory.write m a b) (a + 1) bs

/-! ## Segments -/

/-- One past the segment's last address, in unbounded integers (R20, R22). -/
def Segment.stop (g : Segment) : Nat := g.start.toNat + g.length

/-- The address is one of the segment's bytes (R20). -/
def Segment.covers (g : Segment) (a : Nat) : Bool := decide (g.start.toNat ≤ a) && decide (a < g.stop)

/-- The segment wholly contains the window [a, a + n), in unbounded integers (R33). -/
def Segment.contains (g : Segment) (a n : Nat) : Bool := decide (g.start.toNat ≤ a) && decide (a + n ≤ g.stop)

/-- Two segments overlap, in unbounded integers (R22 a). -/
def Segment.overlaps (g h : Segment) : Bool :=
  decide (g.start.toNat < h.stop) && decide (h.start.toNat < g.stop)

/-- At least one permission is in the set (R21). -/
def Perm.nonEmpty (p : Perm) : Bool := p.r || p.w || p.x

/-- The length is at least 1 and the end at most 2^64 (R22 b, R31). -/
def Segment.fits (g : Segment) : Bool := decide (1 ≤ g.length) && decide (g.stop ≤ 2 ^ 64)

/-- The invariants of the segment table (R22): every segment well formed with a legal permission set, and, in rising
order of start, each ends before the next begins, so that no two overlap. -/
abbrev SegTable.wf (gs : List Segment) : Prop :=
  (∀ g ∈ gs, g.fits = true ∧ g.perm.nonEmpty = true) ∧ gs.Pairwise (fun g h => g.stop ≤ h.start.toNat)

/-- find_containing (R33): the segment that wholly contains the window, if any, in unbounded integers (spec decision D7,
DESIGN CHOICE: log entry 11). It tests no permission. -/
def findContaining (gs : List Segment) (addr : Word) (n : Nat) : Option Segment :=
  gs.find? (·.contains addr.toNat n)

/-- One byte as the address space holds it: none where no segment covers the address (R24). -/
def State.byteAt (s : State) (a : Nat) : Option Byte :=
  if s.segs.any (·.covers a) then some (Memory.read s.mem a) else none

/-! ## The checks every access goes through -/

/-- What a data read needs (R36). -/
def Perm.allowsLoad (p : Perm) : Bool := p.r

/-- What a data write needs (R36). -/
def Perm.allowsStore (p : Perm) : Bool := p.w

/-- What an instruction fetch needs: both R and X (R36, R80). -/
def Perm.allowsFetch (p : Perm) : Bool := p.r && p.x

/-- Containment first, permission second (R37): the one segment of the window, Unmapped, or PermissionDenied. -/
def resolve (s : State) (addr : Word) (n : Nat) (allows : Perm → Bool) : Host.Outcome Segment Fault Refusal :=
  match findContaining s.segs addr n with
  | none => raise .unmapped
  | some g => if allows g.perm then .next g else raise .permissionDenied

/-- The bytes of an access width, for the widths the data port moves (R4 WIDTHS, R43). -/
def accessBytes : Nat → Option Nat
  | 8 => some 1
  | 16 => some 2
  | 32 => some 4
  | 64 => some 8
  | _ => none

/-- load (R34), also read_memory (R30, R53): the little-endian value, zero-extended to 64 bits (spec decision
D12, DESIGN CHOICE: log entry 15). It changes no state. -/
def load (s : State) (addr : Word) (widthBits : Nat) : Host.Outcome Word Fault Refusal :=
  match accessBytes widthBits with
  | none => .refused (.widthOutsideDomain widthBits)
  | some n =>
    andThen (resolve s addr n Perm.allowsLoad) fun _ =>
      .next (BitVec.ofNat 64 (leNat (Memory.readBytes s.mem addr.toNat n)))

/-- store (R35), also write_memory (R30, R53): the low bytes of the value, little-endian (spec decision D12,
DESIGN CHOICE: log entry 15). All n bytes are written, or none. -/
def store (s : State) (addr : Word) (widthBits : Nat) (v : Word) : Host.Outcome State Fault Refusal :=
  match accessBytes widthBits with
  | none => .refused (.widthOutsideDomain widthBits)
  | some n =>
    andThen (resolve s addr n Perm.allowsStore) fun _ =>
      .next (s.withMem (Memory.writeBytes s.mem addr.toNat (leBytes n v.toNat)))

/-- fetch (R80, R81): the word of the window [pc, pc + 4) and the size 4. It writes nothing and tests no
alignment (R42, spec decision D6, DESIGN CHOICE: log entry 10). -/
def fetch (s : State) : Host.Outcome (InstrWord × Nat) Fault Refusal :=
  andThen (resolve s s.pc 4 Perm.allowsFetch) fun _ =>
    .next (wordOfBytes (Memory.readBytes s.mem s.pc.toNat 4), 4)

/-! ## Configuration operations -/

/-- The permission set of an 8-bit vector: R bit 0, W bit 1, X bit 2; none when it is empty or a bit of 7 to 3 is set
(R4 PERM_ENCODING, R21, R31; spec decision D9, DESIGN CHOICE: log entry 13). -/
def Perm.ofBits (b : BitVec 8) : Option Perm :=
  if b = 0 ∨ b.extractLsb' 3 5 ≠ 0 then none
  else some { r := b.getLsbD 0, w := b.getLsbD 1, x := b.getLsbD 2 }

/-- The 8-bit vector of a permission set (R4 PERM_ENCODING, R21). -/
def Perm.toBits (p : Perm) : BitVec 8 :=
  BitVec.ofNat 8 (p.r.toNat + 2 * p.w.toNat + 4 * p.x.toNat)

/-- Put a segment in its place by start; the table's order is not observable (R19). -/
def insertSegment (g : Segment) : List Segment → List Segment
  | [] => [g]
  | h :: gs => if g.start.toNat ≤ h.start.toNat then g :: h :: gs else h :: insertSegment g gs

/-- The byte store without the bytes of a segment. -/
def Memory.clear (m : Memory) (g : Segment) : Memory := m.filter fun c => !g.covers c.1

/-- add_segment (R31): refused when ill-formed, then InvalidPermissions, then OverlapError (spec decisions D8,
D10, DESIGN CHOICE: log entries 12, 13); on any of them nothing is installed. The new segment's bytes are all zero. -/
def addSegment (s : State) (start : Word) (length : Nat) (permBits : BitVec 8) :
    Host.Outcome (Segment × State) ConfigError Refusal :=
  if 1 ≤ length ∧ start.toNat + length ≤ 2 ^ 64 then
    match Perm.ofBits permBits with
    | none => .fault .invalidPermissions
    | some p =>
      let g : Segment := { start := start, length := length, perm := p }
      if s.segs.any (·.overlaps g) then .fault .overlapError
      else .next (g, (s.withSegs (insertSegment g s.segs)).withMem (Memory.clear s.mem g))
  else .refused .illFormedSegment

/-- remove_segment (R32): the segment and its bytes go; one that is not in the table is a no-op (spec
decision D11, DESIGN CHOICE: log entry 14). What identifies a segment is left open: its start, length and permissions do
here (DESIGN CHOICE: log entry 28). -/
def removeSegment (s : State) (g : Segment) : State :=
  if g ∈ s.segs then (s.withSegs (s.segs.erase g)).withMem (Memory.clear s.mem g) else s

/-- What makes the fetch at pc read a given word: its four bytes stored there, in a readable and executable segment.
Where no such segment contains the window, the segments in its way are removed and one of four bytes is mapped; where the
window would pass 2^64, pc goes to 0 first. It stands for the loader's work (log entry 4). -/
def State.placeWord (s : State) (w : InstrWord) : State :=
  let s0 := if s.pc.toNat + 4 ≤ 2 ^ 64 then s else s.writePc 0
  let ready := match findContaining s0.segs s0.pc 4 with
    | some g => g.perm.allowsFetch
    | none => false
  let g : Segment := { start := s0.pc, length := 4, perm := { r := true, w := false, x := true } }
  let s1 :=
    if ready then s0
    else
      let cleared := (s0.segs.filter (·.overlaps g)).foldl removeSegment s0
      cleared.withSegs (insertSegment g cleared.segs)
  s1.withMem (Memory.writeBytes s1.mem s1.pc.toNat (leBytes 4 w.toNat))

end Sys2Proof.Machine
end

