-- ==== Sys2Proof/Machine/Operands.lean ====
section
/-! DEFINITION. The operand forms (spec/30_encoding.md R63; spec/44_shift.md R133; spec/40_fetch_decode_execute.md R84,
R85, R88): two source registers, one destination register, and the shift amount. There is no immediate. -/

namespace Sys2Proof.Machine

/-- trunc_64 of any integer (R6). -/
def trunc64 (k : Int) : Word := BitVec.ofInt 64 k

/-- The shift amount: the low six bits of the second source value, 0 to 63 (R63, R133). -/
def shiftAmount (b : Word) : Nat := (b.extractLsb' 0 6).toNat

/-- The template of every handler (R84): the funct7 test first, on all 7 bits, with nothing written when it fails (R85);
both sources read before the destination is written; x0 reads zero and discards (R88). pc and memory are not touched. -/
def rType (required : BitVec 7) (compute : Word → Word → Word) (f : RFields) (s : State) :
    Host.Outcome State Fault Refusal :=
  if f.funct7 ≠ required then raise .unsupportedVariant
  else .next (s.writeReg f.rd (compute (s.readReg f.rs1) (s.readReg f.rs2)))

end Sys2Proof.Machine
end

