-- ==== Sys2Proof/Machine/Arithmetic.lean ====
section
/-! DEFINITION. ADD and SUB (spec/41_arithmetic.md R100 to R102). -/

namespace Sys2Proof.Machine

/-- ADD (R100): trunc_64(u(a) + u(b)); required funct7 0x00. -/
def execAdd (f : RFields) (s : State) : Host.Outcome State Fault Refusal :=
  rType 0x00 (fun a b => trunc64 ((a.toNat : Int) + (b.toNat : Int))) f s

/-- SUB (R101): trunc_64(u(a) - u(b)), first source minus second; required funct7 0x20. -/
def execSub (f : RFields) (s : State) : Host.Outcome State Fault Refusal :=
  rType 0x20 (fun a b => trunc64 ((a.toNat : Int) - (b.toNat : Int))) f s

end Sys2Proof.Machine
end

