-- ==== Sys2Proof/Machine/Flags.lean ====
section
/-! DEFINITION. The hardware has no flags (spec/10_state.md R17): a comparison delivers its result as the value 1 or 0 in
a general register. This file holds the comparisons and that value (spec/42_compare.md R110 to R112). -/

namespace Sys2Proof.Machine

/-- The full 64-bit register value of a condition: 1 or 0, bits 63 to 1 always zero (R110, R111). -/
def flagWord (c : Bool) : Word := if c then 0x0000000000000001 else 0x0000000000000000

/-- s(a) < s(b), on the integer readings and not by a subtraction (R110, R112). -/
def lessSigned (a b : Word) : Bool := decide (a.toInt < b.toInt)

/-- u(a) < u(b), on the integer readings (R111, R112). -/
def lessUnsigned (a b : Word) : Bool := decide (a.toNat < b.toNat)

end Sys2Proof.Machine
end

