-- ==== Sys2Proof/Machine/Compare.lean ====
section
/-! DEFINITION. SLT and SLTU (spec/42_compare.md R110 to R112). -/

namespace Sys2Proof.Machine

/-- SLT (R110): 1 if s(a) < s(b) else 0; required funct7 0x00. -/
def execSlt (f : RFields) (s : State) : Host.Outcome State Fault Refusal :=
  rType 0x00 (fun a b => flagWord (lessSigned a b)) f s

/-- SLTU (R111): 1 if u(a) < u(b) else 0; required funct7 0x00. -/
def execSltu (f : RFields) (s : State) : Host.Outcome State Fault Refusal :=
  rType 0x00 (fun a b => flagWord (lessUnsigned a b)) f s

end Sys2Proof.Machine
end

