-- ==== Sys2Proof/Machine/Logical.lean ====
section
/-! DEFINITION. AND, OR and XOR (spec/43_logical.md R120 to R122). -/

namespace Sys2Proof.Machine

/-- AND (R120): bitwise conjunction; required funct7 0x00. -/
def execAnd (f : RFields) (s : State) : Host.Outcome State Fault Refusal :=
  rType 0x00 (fun a b => a &&& b) f s

/-- OR (R121): bitwise inclusive disjunction; required funct7 0x00. -/
def execOr (f : RFields) (s : State) : Host.Outcome State Fault Refusal :=
  rType 0x00 (fun a b => a ||| b) f s

/-- XOR (R122): bitwise exclusive disjunction; required funct7 0x00. -/
def execXor (f : RFields) (s : State) : Host.Outcome State Fault Refusal :=
  rType 0x00 (fun a b => a ^^^ b) f s

end Sys2Proof.Machine
end

