-- ==== Sys2Proof/Machine/Shift.lean ====
section
/-! DEFINITION. SLL, SRL and SRA (spec/44_shift.md R130 to R133). The amount is 0 to 63, so no shift moves by the width
or more (R133). -/

namespace Sys2Proof.Machine

/-- SLL (R130): trunc_64(u(a) * 2^shamt); required funct7 0x00. -/
def execSll (f : RFields) (s : State) : Host.Outcome State Fault Refusal :=
  rType 0x00 (fun a b => trunc64 ((a.toNat : Int) * (2 ^ shiftAmount b : Nat))) f s

/-- SRL (R131): floor(u(a) / 2^shamt); required funct7 0x00. -/
def execSrl (f : RFields) (s : State) : Host.Outcome State Fault Refusal :=
  rType 0x00 (fun a b => trunc64 ((a.toNat : Int).fdiv (2 ^ shiftAmount b : Nat))) f s

/-- SRA (R132): trunc_64(floor(s(a) / 2^shamt)), rounding toward minus infinity; required funct7 0x20. -/
def execSra (f : RFields) (s : State) : Host.Outcome State Fault Refusal :=
  rType 0x20 (fun a b => trunc64 (a.toInt.fdiv (2 ^ shiftAmount b : Nat))) f s

end Sys2Proof.Machine
end

