-- ==== Sys2Proof/Machine/Execute.lean ====
section
/-! DEFINITION. decode and execute as the block's operations (spec/40_fetch_decode_execute.md R82, R84, R87). -/

namespace Sys2Proof.Machine

/-- decode as an operation: the word no entry matches is the fault Unsupported (R82, R143). -/
def decodeOrFault (m : DecodeMode) (w : InstrWord) : Host.Outcome Instr Fault Refusal :=
  match decode m w with
  | .ok i => .next i
  | .error .unsupported => raise .unsupported

/-- execute(handler, process, word) for any handler and any word: the handler checks funct7 and nothing else of the word
(R84, R87, spec decision D18, DESIGN CHOICE: log entry 18). -/
def execute (h : Handler) (w : InstrWord) (s : State) : Host.Outcome State Fault Refusal := exec (h.on w) s

end Sys2Proof.Machine
end

