-- ==== Sys2Proof/Machine/Step.lean ====
section
/-! DEFINITION. The step: fetch, decode, execute, then the advance of pc (spec/40_fetch_decode_execute.md R90 to R92;
spec/60_exceptions.md R147). -/

namespace Sys2Proof.Machine

/-- The step in a given DECODE_MODE (R90): each part may raise, and then nothing is changed (R91); pc moves after the last
of them (spec decision D2, DESIGN CHOICE: log entry 8). -/
def stepIn (m : DecodeMode) (s : State) : Host.Outcome State Fault Refusal :=
  andThen (fetch s) fun (w, n) =>
    andThen (decodeOrFault m w) fun i =>
      andThen (exec i s) fun t => .next (t.advancePc n)

/-- The step of the hardware, in the mode the spec takes (R65, R90). -/
def step (s : State) : Host.Outcome State Fault Refusal := stepIn Config.decodeMode s

/-- The state with one table instruction where the next step fetches: nbits bits of w, every bit above them zero. -/
def State.withFetchWord (s : State) (nbits w : Nat) : State := s.placeWord (BitVec.ofNat 32 (w % 2 ^ nbits))

end Sys2Proof.Machine
end

