-- ==== Sys2Proof/Machine/HostPort.lean ====
section
/-! DEFINITION. What the host can do to a Process between steps (spec/70_reset_and_hazards.md R186; spec/10_state.md R13;
spec/20_memory.md R53; spec/60_exceptions.md R152). step itself makes no host move (spec decision D20: log entry
19). fetch, decode, read_memory and a register read change nothing and are no moves. -/

namespace Sys2Proof.Machine

/-- A host interaction that may change the state, one atomic transaction each (R186). -/
inductive HostMove where
  /-- write_memory (R35, R53). -/
  | writeMemory (addr : Word) (widthBits : Nat) (v : Word)
  /-- add_segment (R31). -/
  | addSegment (start : Word) (length : Nat) (permBits : BitVec 8)
  /-- remove_segment (R32). -/
  | removeSegment (g : Segment)
  /-- Register write (R13). -/
  | writeReg (i : Reg) (v : Word)
  /-- Writing pc (R152). -/
  | writePc (v : Word)
  /-- A direct call of execute (R87, R186). -/
  | execute (h : Handler) (w : InstrWord)
deriving DecidableEq, Repr

/-- The state the host goes on from after an operation: the one it gives, or, where it failed, the unchanged one (R38,
R149, R152). A refused use has no meaning and so no state after it (R7). -/
def stateAfter {φ : Type} (s : State) : Host.Outcome State φ Refusal → Except Refusal State
  | .next t => .ok t
  | .fault _ => .ok s
  | .refused r => .error r

/-- The state after a host move (R186), or why the move is outside the domain the spec gives a meaning to (R7). -/
def hostMove (v : HostMove) (s : State) : Except Refusal State :=
  match v with
  | .writeMemory addr widthBits x => stateAfter s (store s addr widthBits x)
  | .addSegment start length permBits =>
    stateAfter s (andThen (addSegment s start length permBits) fun (_, t) => .next t)
  | .removeSegment g => .ok (removeSegment s g)
  | .writeReg i x => .ok (s.writeReg i x)
  | .writePc x => .ok (s.writePc x)
  | .execute h w => stateAfter s (execute h w s)

end Sys2Proof.Machine
end

