-- ==== Sys2Proof/Machine/Loader.lean ====
section
/-! DEFINITION. The loader as the environment that produces the launch state (spec/70_reset_and_hazards.md R170 to R183).
It is software around the block (spec/00_scope.md R3 b); the block itself never calls it. Its input is the file's bytes;
the OPEN parameters of R4 are its other arguments. The spec names the fields of a file that are consumed (R177) and gives
no place for them: the places are those of the ELF64 format, PRESUMED: log entry 22. -/

namespace Sys2Proof.Machine

/-- The fields of the file header the loader consumes (R177). -/
structure ElfHeader where
  magic : List Byte
  fileClass : Nat
  dataEncoding : Nat
  identVersion : Nat
  osAbi : Nat
  fileType : Nat
  machine : Nat
  version : Nat
  entry : Word
  /-- The program-header offset: where in the file the header table begins. -/
  tableOffset : Nat
  /-- The program-header entry-size: the distance from one header of the table to the next. -/
  entrySize : Nat
  /-- The program-header count. -/
  headerCount : Nat
deriving DecidableEq, Repr

/-- The fields of a program header the loader consumes (R177). -/
structure ProgramHeader where
  headerType : Nat
  flags : Nat
  virtualAddress : Word
  fileOffset : Nat
  fileSize : Nat
  memorySize : Nat
deriving DecidableEq, Repr

/-- n bytes of the file from an offset on, none where the file does not hold them (R159, R179: cannot seek or read). That
this fails for n = 0 too, where the offset lies past the file's end, is the model's DESIGN CHOICE: log entry 27. -/
def readFile (file : List Byte) (offset n : Nat) : Option (List Byte) :=
  if offset + n ≤ file.length then some ((file.drop offset).take n) else none

/-- A little-endian field of a record read from the file. -/
def fieldOf (record : List Byte) (offset n : Nat) : Nat := leNat ((record.drop offset).take n)

/-- Loader step 1: read the file header (R177, R178), the 64 bytes of an ELF64 one (PRESUMED: log entry 22). -/
def readFileHeader (file : List Byte) : Option ElfHeader :=
  (readFile file 0 64).map fun r =>
    { magic := r.take 4,
      fileClass := fieldOf r 4 1,
      dataEncoding := fieldOf r 5 1,
      identVersion := fieldOf r 6 1,
      osAbi := fieldOf r 7 1,
      fileType := fieldOf r 16 2,
      machine := fieldOf r 18 2,
      version := fieldOf r 20 4,
      entry := BitVec.ofNat 64 (fieldOf r 24 8),
      tableOffset := fieldOf r 32 8,
      entrySize := fieldOf r 54 2,
      headerCount := fieldOf r 56 2 }

/-- Read the program header at a file offset (R177, R179), the 56 bytes of an ELF64 one (PRESUMED: log entry 22). -/
def readProgramHeader (file : List Byte) (offset : Nat) : Option ProgramHeader :=
  (readFile file offset 56).map fun r =>
    { headerType := fieldOf r 0 4,
      flags := fieldOf r 4 4,
      virtualAddress := BitVec.ofNat 64 (fieldOf r 16 8),
      fileOffset := fieldOf r 8 8,
      fileSize := fieldOf r 32 8,
      memorySize := fieldOf r 40 8 }

/-- Where the program header of an index lies: header_table_offset + index * header_entry_size (R179). -/
def ElfHeader.headerOffset (h : ElfHeader) (index : Nat) : Nat := h.tableOffset + index * h.entrySize

/-- Why the loader hands over no Process (R159, R178, R179). Host-side errors, raised by loadProcess alone; safe: the
spec's own. Failures of the host's own memory and files (R159) have no counterpart here: log entry 7. -/
inductive LoadError where
  /-- The file is too short for a file header; no source names this error (log entry 27). -/
  | cannotReadFileHeader
  /-- Wrong magic bytes (R178). -/
  | badMagic
  /-- Not the 64-bit class (R178). -/
  | badClass
  /-- Not little-endian (R178). -/
  | badDataEncoding
  /-- Wrong identification version (R178). -/
  | badIdentVersion
  /-- Not System V (R178). -/
  | badOsAbi
  /-- Not an executable (R178). -/
  | badFileType
  /-- Not the target ISA (R178). -/
  | badMachine
  /-- Wrong version field (R178). -/
  | badVersion
  /-- The file does not hold the program header at its place in the table (R179). -/
  | cannotReadProgramHeader
  /-- file_size is greater than memory_size (R179). -/
  | segmentMemoryTooSmall
  /-- The file does not hold the declared bytes at the declared offset (R159, R179). -/
  | cannotReadSegment
  /-- add_segment reported InvalidPermissions (R31, R174). -/
  | invalidPermissions
  /-- add_segment reported OverlapError (R31, R174). -/
  | overlapError
deriving DecidableEq, Repr

/-- Loader step 1 (R178): the eight checks in order; the first that fails names the error. The ELF numbers are the spec's
general knowledge G7, UNVERIFIED: log entry 6. -/
def validateHeader (h : ElfHeader) : Option LoadError :=
  if h.magic ≠ [0x7F, 0x45, 0x4C, 0x46] then some .badMagic
  else if h.fileClass ≠ 2 then some .badClass
  else if h.dataEncoding ≠ 1 then some .badDataEncoding
  else if h.identVersion ≠ 1 then some .badIdentVersion
  else if h.osAbi ≠ 0 then some .badOsAbi
  else if h.fileType ≠ 2 then some .badFileType
  else if h.machine ≠ 243 then some .badMachine
  else if h.version ≠ 1 then some .badVersion
  else none

/-- The permission set of a program header's flags: PF_X bit 0, PF_W bit 1, PF_R bit 2 (R179, G7). -/
def translateFlags (flags : Nat) : Perm :=
  { r := flags.testBit 2, w := flags.testBit 1, x := flags.testBit 0 }

/-- An error of add_segment as the loader reports it (R159). -/
def loadErrorOf : ConfigError → LoadError
  | .invalidPermissions => .invalidPermissions
  | .overlapError => .overlapError

/-- Loader step 2 for one program header (R179): only a loadable one (PT_LOAD = 1) acts; the file's bytes are copied into
the new segment's buffer whatever its permissions, and the rest stay zero. The file_size test stands after add_segment
(DESIGN CHOICE: log entry 5). Where file_size is 0 and the file offset lies past the file's end, the spec does not say
whether the seek fails; the model reports cannotReadSegment (DESIGN CHOICE: log entry 27). -/
def loadSegment (file : List Byte) (p : ProgramHeader) (s : State) : Host.Outcome State LoadError Refusal :=
  if p.headerType ≠ 1 then .next s
  else
    match addSegment s p.virtualAddress p.memorySize (translateFlags p.flags).toBits with
    | .fault e => .fault (loadErrorOf e)
    | .refused r => .refused r
    | .next (_, t) =>
      if p.memorySize < p.fileSize then .fault .segmentMemoryTooSmall
      else
        match readFile file p.fileOffset p.fileSize with
        | none => .fault .cannotReadSegment
        | some bytes => .next (t.withMem (Memory.writeBytes t.mem p.virtualAddress.toNat bytes))

/-- Loader step 2 from one index of the header table on, for a number of headers (R179): seek to each, read it, act on it;
a header that cannot be read is fatal. -/
def loadSegments (file : List Byte) (h : ElfHeader) (index : Nat) : Nat → State → Host.Outcome State LoadError Refusal
  | 0, s => .next s
  | n + 1, s =>
    match readProgramHeader file (h.headerOffset index) with
    | none => .fault .cannotReadProgramHeader
    | some p => andThen (loadSegment file p s) (loadSegments file h (index + 1) n)

/-- A newly created Process: registers zero, address space empty (R27, R170). Its pc, which no source gives (N5) and
nothing can observe (R27), is set by step 3: log entry 25. -/
def newProcess (entry : Word) : State :=
  { regs := Vector.replicate 31 0, pc := entry, segs := [], mem := [] }

/-- Loader step 4 (R172, R181): the stack segment, readable and writable, at the drawn base; the stack pointer at
base + limit, wrapping. A base the loader may not draw is refused (R176). -/
def placeStack (stackBase : Word) (limit : Nat) (s : State) : Host.Outcome State LoadError Refusal :=
  match addSegment s stackBase limit ({ r := true, w := true, x := false } : Perm).toBits with
  | .fault _ => .refused .stackBaseNotAllowed
  | .refused _ => .refused .stackBaseNotAllowed
  | .next (_, t) => .next (t.writeReg Config.spIndex (BitVec.ofNat 64 (stackBase.toNat + limit)))

/-- load_process (R177): the launch state, or an error and no Process (R183). stackLimit is the host's limit, none when it
is unbounded (R181); stackBase is the draw of R176. The registers are zero from creation, which is step 5 (R182). -/
def loadProcess (file : List Byte) (stackLimit : Option Nat) (stackBase : Word) :
    Host.Outcome State LoadError Refusal :=
  match readFileHeader file with
  | none => .fault .cannotReadFileHeader
  | some h =>
    match validateHeader h with
    | some e => .fault e
    | none =>
      andThen (loadSegments file h 0 h.headerCount (newProcess h.entry))
        (placeStack stackBase (stackLimit.getD Config.stackDefault))

end Sys2Proof.Machine
end

