-- ==== Sys2Proof/Safety.lean ====
section
/-! DEFINITION. What claims are stated in: the invariant of a state, what an instruction may change, runs and how they end,
and the states a Process can be in. -/

namespace Sys2Proof.Machine

/-- The invariant of the address space (R22): the segment table is sound, the byte store canonical, and every listed byte
belongs to a segment. -/
abbrev State.wf (s : State) : Prop :=
  SegTable.wf s.segs ∧ Memory.wf s.mem ∧ ∀ c ∈ s.mem, s.segs.any (·.covers c.1) = true

/-- The address space is as it was: every segment, and every byte as reads give it. -/
def SameMemory (s t : State) : Prop :=
  t.segs = s.segs ∧ t.mem = s.mem ∧ ∀ a : Nat, t.byteAt a = s.byteAt a

/-- From s to t the register d took the value v (or nothing did, where d is x0), and nothing else changed: no other
register, not pc, no segment, no byte. -/
def WroteOnly (s t : State) (d : Reg) (v : Word) : Prop :=
  t.pc = s.pc ∧ SameMemory s t ∧ ∀ r : Reg, t.readReg r = if r = d ∧ d ≠ 0 then v else s.readReg r

/-- The word {funct7, rs2, rs1, funct3, rd, 0110011} of bit fields, bit 31 first (R61, R64). -/
def wordOfFields (f7 : BitVec 7) (rs2 rs1 : Reg) (f3 : BitVec 3) (rd : Reg) : InstrWord :=
  f7 ++ BitVec.ofFin (w := 5) rs2 ++ BitVec.ofFin (w := 5) rs1 ++ f3 ++ BitVec.ofFin (w := 5) rd ++ (0b0110011 : BitVec 7)

/-- In exact mode the words of the layout with this funct7 and funct3, which are the words that match the pattern under
the mask 0xFE00707F, decode to this instruction on their own register fields (R64, R65). -/
def EncodedAs (f7 : BitVec 7) (f3 : BitVec 3) (pattern : InstrWord) (mk : RFields → Instr) : Prop :=
  (∀ rs2 rs1 rd : Reg, wordOfFields f7 rs2 rs1 f3 rd &&& 0xFE00707F = pattern ∧
    decode .exact (wordOfFields f7 rs2 rs1 f3 rd) = .ok (mk { funct7 := f7, rs2 := rs2, rs1 := rs1, rd := rd })) ∧
  ∀ w : InstrWord, w &&& 0xFE00707F = pattern → decode .exact w = .ok (mk (fieldsOf w))

/-- In general mode the words that match the pattern decode to another handler, whose funct7 test then fails (R66). -/
def ShadowedInGeneralMode (pattern : InstrWord) (mk : RFields → Instr) : Prop :=
  ∀ w : InstrWord, w &&& 0xFE00707F = pattern →
    decode .general w = .ok (mk (fieldsOf w)) ∧ ∀ s : State, exec (mk (fieldsOf w)) s = .fault .unsupportedVariant

/-- The instruction raises UnsupportedVariant, and so writes nothing, when funct7 is not the required value, and otherwise
answers a next state in which the destination alone has changed, to a value that stands in the given relation to the
values of its two sources before (R84 to R86). -/
def ComputesTo (mk : RFields → Instr) (required : BitVec 7) (result : Word → Word → Word → Prop) : Prop :=
  ∀ (f : RFields) (s : State),
    (f.funct7 ≠ required → exec (mk f) s = .fault .unsupportedVariant) ∧
    (f.funct7 = required → ∃ t v, exec (mk f) s = .next t ∧ WroteOnly s t f.rd v ∧
      result (s.readReg f.rs1) (s.readReg f.rs2) v)

/-- n steps in a DECODE_MODE, stopping at the first fault or refusal. -/
def runIn (m : DecodeMode) : Nat → State → Host.Outcome State Fault Refusal
  | 0, s => .next s
  | n + 1, s => andThen (stepIn m s) (runIn m n)

/-- How a run ends (R96): n successful steps lead from s to t, whose step raises r. Every run of this hardware ends so;
which r and which pc count as having gone wrong is for the claim to say (R151). -/
def RunEnds (m : DecodeMode) (s : State) (n : Nat) (t : State) (r : Fault) : Prop :=
  runIn m n s = .next t ∧ stepIn m t = .fault r

/-- The states a Process can be in: launched by the loader, after a step, or after a host move between steps
that the spec gives a meaning (R7, R170, R186). -/
inductive Reachable (m : DecodeMode) : State → Prop where
  | launched (file : List Byte) (stackLimit : Option Nat) (stackBase : Word) (s : State)
      (h : loadProcess file stackLimit stackBase = .next s) : Reachable m s
  | stepped (s t : State) (hs : Reachable m s) (h : stepIn m s = .next t) : Reachable m t
  | moved (s t : State) (v : HostMove) (hs : Reachable m s) (h : hostMove v s = .ok t) : Reachable m t

end Sys2Proof.Machine
end

