-- ==== Sys2Proof/Certificates/Slice0/Obligations.lean ====
section
/-! DEFINITION. The statements for the provers, from the numbered rules of spec/. -/

open Sys2Proof Sys2Proof.Machine

/-! ## Encoding and decoding (spec/30_encoding.md) -/

/-- R64: every well-formed instruction, with every value of every field, is read back from its word and from its bytes.
-/
def Obligations.DecodeOfEncodeIsIdentity : Prop :=
  ∀ i : Instr, i.wf = true →
    decode .exact (encode i) = .ok i ∧
    ∀ rest : List Byte, decodeBytes .exact (encodeBytes i ++ rest) = some (.ok i, rest)

/-- R61, R62, R65, R66: in either mode a decoded instruction keeps every bit of its word, and in exact mode it is well
formed. -/
def Obligations.DecodedWordIsTheEncoding : Prop :=
  ∀ (m : DecodeMode) (w : InstrWord) (i : Instr), decode m w = .ok i →
    encode i = w ∧ i.fields = fieldsOf w ∧ (m = .exact → i.wf = true)

/-- R65: the ten entries of the exact table; the first that matches names the handler; no two match one word, so the
order cannot be seen; each handler is reachable and its funct7 test passes; opcode 0x33 with a wrong funct7 is
Unsupported. -/
def Obligations.ExactDecodeTable : Prop :=
  exactTable.map (fun r => (r.mask, r.pattern, r.handler)) =
    [ (0xFE00707F, 0x00000033, .add), (0xFE00707F, 0x40000033, .sub), (0xFE00707F, 0x00001033, .sll),
      (0xFE00707F, 0x00002033, .slt), (0xFE00707F, 0x00003033, .sltu), (0xFE00707F, 0x00004033, .xor),
      (0xFE00707F, 0x00005033, .srl), (0xFE00707F, 0x40005033, .sra), (0xFE00707F, 0x00006033, .or),
      (0xFE00707F, 0x00007033, .and) ] ∧
  (∀ w : InstrWord, ∀ r ∈ exactTable, w &&& r.mask = r.pattern →
    decode .exact w = .ok (r.handler.on w) ∧ (r.handler.on w).fields.funct7 = (r.handler.on w).requiredFunct7 ∧
    ∀ q ∈ exactTable, w &&& q.mask = q.pattern → q = r) ∧
  (∀ w : InstrWord, (∀ r ∈ exactTable, w &&& r.mask ≠ r.pattern) → decode .exact w = .error .unsupported) ∧
  (∀ h : Handler, ∃ w : InstrWord, decode .exact w = .ok (h.on w)) ∧
  ∀ w : InstrWord, opcode w = 0x33 → funct7 w ≠ 0x00 → ¬ (funct7 w = 0x20 ∧ (funct3 w = 0b000 ∨ funct3 w = 0b101)) →
    decode .exact w = .error .unsupported

/-- R66, the table of general mode: a word decodes exactly when its opcode is 0x33, by funct3 alone, never to sub or
sra, and its handler raises UnsupportedVariant unless funct7 is 0. -/
def Obligations.GeneralModeDecodesByFunct3 : Prop :=
  ∀ w : InstrWord,
    (opcode w = 0x33 → ∃ i : Instr, decode .general w = .ok i ∧ i.fields = fieldsOf w ∧ i.funct3 = funct3 w ∧
      i.requiredFunct7 = 0x00 ∧
      ∀ s : State, (funct7 w = 0x00 → ∃ t, exec i s = .next t) ∧
        (funct7 w ≠ 0x00 → exec i s = .fault .unsupportedVariant)) ∧
    (opcode w ≠ 0x33 → decode .general w = .error .unsupported)

/-- R66 (a), (b): where the two modes' steps differ, and that they differ nowhere else. The step is that of the spec's
decision D2 (log entry 8). -/
def Obligations.DecodeModesDifferOnlyOnVariants : Prop :=
  (∀ s : State, (∀ w, fetch s ≠ .next (w, 4)) → stepIn .general s = stepIn .exact s) ∧
  ∀ (s : State) (w : InstrWord), fetch s = .next (w, 4) →
    (opcode w ≠ 0x33 ∨ funct7 w = 0x00 → stepIn .general s = stepIn .exact s) ∧
    (opcode w = 0x33 → funct7 w = 0x20 → (funct3 w = 0b000 ∨ funct3 w = 0b101) →
      stepIn .general s = .fault .unsupportedVariant ∧ ∃ t, stepIn .exact s = .next t) ∧
    (opcode w = 0x33 → funct7 w ≠ 0x00 → ¬ (funct7 w = 0x20 ∧ (funct3 w = 0b000 ∨ funct3 w = 0b101)) →
      stepIn .general s = .fault .unsupportedVariant ∧ stepIn .exact s = .fault .unsupported)

/-- R67, R70: exactly the words of the opcode map are legal in exact mode, and the low two bits of a word that decodes
in either mode are 11. -/
def Obligations.LegalWordsAreTheOpcodeMap : Prop :=
  (∀ w : InstrWord, decode .exact w = .error .unsupported ↔
    ¬ (opcode w = 0x33 ∧ (funct7 w = 0x00 ∨ (funct7 w = 0x20 ∧ (funct3 w = 0b000 ∨ funct3 w = 0b101))))) ∧
  ∀ (m : DecodeMode) (w : InstrWord) (i : Instr), decode m w = .ok i → w.extractLsb' 0 2 = 0b11

/-- R82: the register fields of a word never change which handler decode returns, or whether it returns one. -/
def Obligations.DecodeIgnoresRegisterFields : Prop :=
  ∀ (m : DecodeMode) (v w : InstrWord), v &&& 0xFE00707F = w &&& 0xFE00707F → findHandler m v = findHandler m w

/-- 95_test_vectors.md V1, V2, EN1 to EN10 and part 2.1: words written out in the spec decode to what it says, and words
it calls illegal to nothing. -/
def Obligations.WordsOfTheSpecDecode : Prop :=
  decode .exact 0x00C58533 = .ok (.add { funct7 := 0x00, rs2 := 12, rs1 := 11, rd := 10 }) ∧
  decode .exact 0x40C58533 = .ok (.sub { funct7 := 0x20, rs2 := 12, rs1 := 11, rd := 10 }) ∧
  decode .exact 0x00C59533 = .ok (.sll { funct7 := 0x00, rs2 := 12, rs1 := 11, rd := 10 }) ∧
  decode .exact 0x00C5A533 = .ok (.slt { funct7 := 0x00, rs2 := 12, rs1 := 11, rd := 10 }) ∧
  decode .exact 0x006032B3 = .ok (.sltu { funct7 := 0x00, rs2 := 6, rs1 := 0, rd := 5 }) ∧
  decode .exact 0x003140B3 = .ok (.xor { funct7 := 0x00, rs2 := 3, rs1 := 2, rd := 1 }) ∧
  decode .exact 0x0062D3B3 = .ok (.srl { funct7 := 0x00, rs2 := 6, rs1 := 5, rd := 7 }) ∧
  decode .exact 0x4062D3B3 = .ok (.sra { funct7 := 0x20, rs2 := 6, rs1 := 5, rd := 7 }) ∧
  decode .exact 0x003160B3 = .ok (.or { funct7 := 0x00, rs2 := 3, rs1 := 2, rd := 1 }) ∧
  decode .exact 0x003170B3 = .ok (.and { funct7 := 0x00, rs2 := 3, rs1 := 2, rd := 1 }) ∧
  decode .exact 0x00000073 = .error .unsupported ∧
  decode .exact 0x02C58533 = .error .unsupported ∧
  decode .general 0x02C58533 = .ok (.add { funct7 := 0x01, rs2 := 12, rs1 := 11, rd := 10 })

/-! ## Registers (spec/10_state.md) -/

/-- R12: register 0 is hardwired to zero, every other register is ordinary storage. -/
def Obligations.RegisterZeroIsHardwired : Prop :=
  ∀ (s : State) (v : Word),
    s.readReg 0 = 0 ∧ s.writeReg 0 v = s ∧
    ∀ i : Reg, i ≠ 0 → (s.writeReg i v).readReg i = v ∧ ∀ j : Reg, j ≠ i → (s.writeReg i v).readReg j = s.readReg j

/-- R88: x0 as a source reads zero; as a destination it discards: a passing instruction with rd = 0 leaves the whole
state as it was, and the funct7 test still applies. -/
def Obligations.DestinationZeroChangesNothing : Prop :=
  ∀ (i : Instr) (s : State), s.readReg 0 = 0 ∧
    (i.fields.rd = 0 → i.wf = true → exec i s = .next s) ∧
    (i.fields.rd = 0 → i.wf = false → exec i s = .fault .unsupportedVariant)

/-! ## The instructions (spec/41_arithmetic.md to 44_shift.md) -/

/-- R100: ADD is the sum modulo 2^64, whichever way the operands are read. -/
def Obligations.AddIsWrappingSum : Prop :=
  EncodedAs 0b0000000 0b000 0x00000033 .add ∧
  ComputesTo .add 0x00 fun a b v =>
    v.toNat = (a.toNat + b.toNat) % 2 ^ 64 ∧ v = BitVec.ofInt 64 (a.toInt + b.toInt)

/-- R101: SUB is first source minus second modulo 2^64, whichever way the operands are read; general mode shadows it. -/
def Obligations.SubIsWrappingDifference : Prop :=
  EncodedAs 0b0100000 0b000 0x40000033 .sub ∧ ShadowedInGeneralMode 0x40000033 .add ∧
  ComputesTo .sub 0x20 fun a b v =>
    (v.toNat : Int) = ((a.toNat : Int) - (b.toNat : Int)) % 2 ^ 64 ∧ v = BitVec.ofInt 64 (a.toInt - b.toInt) ∧
    v = a + ~~~b + 1

/-- R110: SLT is 1 exactly when the first source is below the second as two's complement, else 0. -/
def Obligations.SltComparesSigned : Prop :=
  EncodedAs 0b0000000 0b010 0x00002033 .slt ∧
  ComputesTo .slt 0x00 fun a b v => (a.toInt < b.toInt → v = 1) ∧ (b.toInt ≤ a.toInt → v = 0)

/-- R111: SLTU is 1 exactly when the first source is below the second as unsigned, else 0. -/
def Obligations.SltuComparesUnsigned : Prop :=
  EncodedAs 0b0000000 0b011 0x00003033 .sltu ∧
  ComputesTo .sltu 0x00 fun a b v => (a.toNat < b.toNat → v = 1) ∧ (b.toNat ≤ a.toNat → v = 0)

/-- R112 (derived in the spec from R5): the signed order by the top bits, and that slt and sltu agree exactly when these
are equal. -/
def Obligations.SltAndSltuAgreeOnEqualTopBits : Prop :=
  ∀ (f : RFields) (s : State), f.funct7 = 0x00 → ∃ t u,
    exec (.slt f) s = .next t ∧ exec (.sltu f) s = .next u ∧
    (f.rd = 0 → t.readReg f.rd = 0 ∧ u.readReg f.rd = 0) ∧
    (f.rd ≠ 0 →
      ((s.readReg f.rs1).getLsbD 63 = true → (s.readReg f.rs2).getLsbD 63 = false → t.readReg f.rd = 1) ∧
      ((s.readReg f.rs1).getLsbD 63 = false → (s.readReg f.rs2).getLsbD 63 = true → t.readReg f.rd = 0) ∧
      (t.readReg f.rd = u.readReg f.rd ↔ (s.readReg f.rs1).getLsbD 63 = (s.readReg f.rs2).getLsbD 63))

/-- R120: AND, bit by bit. -/
def Obligations.AndIsBitwise : Prop :=
  EncodedAs 0b0000000 0b111 0x00007033 .and ∧
  ComputesTo .and 0x00 fun a b v => ∀ i < 64, v.getLsbD i = (a.getLsbD i && b.getLsbD i)

/-- R121: OR, bit by bit. -/
def Obligations.OrIsBitwise : Prop :=
  EncodedAs 0b0000000 0b110 0x00006033 .or ∧
  ComputesTo .or 0x00 fun a b v => ∀ i < 64, v.getLsbD i = (a.getLsbD i || b.getLsbD i)

/-- R122: XOR, bit by bit: 1 where the operands differ. -/
def Obligations.XorIsBitwise : Prop :=
  EncodedAs 0b0000000 0b100 0x00004033 .xor ∧
  ComputesTo .xor 0x00 fun a b v => ∀ i < 64, (v.getLsbD i = true ↔ a.getLsbD i ≠ b.getLsbD i)

/-- R130: SLL, as a product modulo 2^64 and bit by bit. -/
def Obligations.SllShiftsLeft : Prop :=
  EncodedAs 0b0000000 0b001 0x00001033 .sll ∧
  ComputesTo .sll 0x00 fun a b v =>
    v.toNat = a.toNat * 2 ^ (b.extractLsb' 0 6).toNat % 2 ^ 64 ∧
    ∀ i < 64, v.getLsbD i =
      if (b.extractLsb' 0 6).toNat ≤ i then a.getLsbD (i - (b.extractLsb' 0 6).toNat) else false

/-- R131: SRL, as a floor division of the unsigned value and bit by bit; general mode returns it for the sra encoding.
-/
def Obligations.SrlShiftsRightLogically : Prop :=
  EncodedAs 0b0000000 0b101 0x00005033 .srl ∧ ShadowedInGeneralMode 0x40005033 .srl ∧
  ComputesTo .srl 0x00 fun a b v =>
    v.toNat = a.toNat / 2 ^ (b.extractLsb' 0 6).toNat ∧
    ∀ i < 64, v.getLsbD i =
      if i ≤ 63 - (b.extractLsb' 0 6).toNat then a.getLsbD (i + (b.extractLsb' 0 6).toNat) else false

/-- R132: SRA, as a floor division of the signed value and bit by bit; general mode shadows it. -/
def Obligations.SraShiftsRightArithmetically : Prop :=
  EncodedAs 0b0100000 0b101 0x40005033 .sra ∧ ShadowedInGeneralMode 0x40005033 .srl ∧
  ComputesTo .sra 0x20 fun a b v =>
    v.toInt = a.toInt.fdiv (2 ^ (b.extractLsb' 0 6).toNat) ∧
    (∀ i < 64, v.getLsbD i =
      if i ≤ 63 - (b.extractLsb' 0 6).toNat then a.getLsbD (i + (b.extractLsb' 0 6).toNat) else a.getLsbD 63) ∧
    (a.getLsbD 63 = false → v.toNat = a.toNat / 2 ^ (b.extractLsb' 0 6).toNat)

/-- R133: the amount is the second source's low six bits, 0 to 63; its other bits have no effect on any shift; an amount
of 0, as x0 gives, leaves the first operand unchanged. -/
def Obligations.ShiftAmountIsLowSixBits : Prop :=
  (∀ b : Word, shiftAmount b = (b &&& 0x3F).toNat ∧ shiftAmount b ≤ 63) ∧
  ∀ (f : RFields) (i : Instr), (i = .sll f ∨ i = .srl f ∨ i = .sra f) → i.wf = true →
    (∀ s u : State, s.readReg f.rs1 = u.readReg f.rs1 →
      s.readReg f.rs2 &&& 0x3F = u.readReg f.rs2 &&& 0x3F →
      ∃ t v, exec i s = .next t ∧ exec i u = .next v ∧ t.readReg f.rd = v.readReg f.rd) ∧
    (∀ s : State, (s.readReg f.rs2 &&& 0x3F = 0 ∨ f.rs2 = 0) →
      ∃ t, exec i s = .next t ∧ WroteOnly s t f.rd (s.readReg f.rs1))

/-! ## Execute (spec/40_fetch_decode_execute.md) -/

/-- R86: execute is total but for the funct7 test: every instruction whose funct7 is the required value answers a next
state that differs in the destination alone; otherwise the fault is UnsupportedVariant. -/
def Obligations.ExecuteIsTotalAndWritesOneRegister : Prop :=
  ∀ (i : Instr) (s : State),
    (i.fields.funct7 = i.requiredFunct7 → ∃ t v, exec i s = .next t ∧ WroteOnly s t i.fields.rd v) ∧
    (i.fields.funct7 ≠ i.requiredFunct7 → exec i s = .fault .unsupportedVariant)

/-- R87 (spec decision D18, log entry 18): a handler checks funct7 of the word and uses its register fields; opcode and
funct3 of the word have no effect, and a handler run on a word of another operation computes its own: the five direct
calls of 95_test_vectors.md section 2.1, from every state. -/
def Obligations.HandlerChecksFunct7Only : Prop :=
  (∀ (h : Handler) (v w : InstrWord) (s : State),
    (funct7 w ≠ (h.on w).requiredFunct7 → execute h w s = .fault .unsupportedVariant) ∧
    (funct7 w = (h.on w).requiredFunct7 → ∃ t x, execute h w s = .next t ∧ WroteOnly s t (rd w) x) ∧
    (v &&& 0xFFFF8F80 = w &&& 0xFFFF8F80 → execute h v s = execute h w s)) ∧
  (∀ s : State, ∃ t, execute .add 0x00C58533 s = .next t ∧
    t.readReg 10 = s.readReg 11 + s.readReg 12) ∧
  (∀ s : State, execute .add 0x40C58533 s = .fault .unsupportedVariant) ∧
  (∀ s : State, execute .sub 0x00C58533 s = .fault .unsupportedVariant) ∧
  (∀ s : State, ∃ t, execute .sub 0x40C58533 s = .next t ∧
    t.readReg 10 = s.readReg 11 - s.readReg 12) ∧
  (∀ s : State, ∃ t, execute .xor 0x00C58533 s = .next t ∧ t.readReg 10 = s.readReg 11 ^^^ s.readReg 12) ∧
  ∀ (m : DecodeMode) (w : InstrWord) (i : Instr), decode m w = .ok i → ∃ h, findHandler m w = some h ∧ i = h.on w

/-! ## The step (spec/40_fetch_decode_execute.md, spec/60_exceptions.md) -/

/-- R90, the step the spec defines as its own decision D2 (log entry 8): when the bytes at pc, in a readable and
executable segment, decode to a well-formed instruction, the step is that instruction's execute and then the advance of
pc by 4; that the machine's step runs sub and sra so is its DECODE_MODE exact, the spec's decision D1 (log entry 1,
unsafe). In either mode, whatever the fetched word decodes to, the step is its execute and that advance. -/
def Obligations.StepRunsTheDecodedInstruction : Prop :=
  (∀ (s : State) (i : Instr) (g : Segment), i.wf = true → findContaining s.segs s.pc 4 = some g →
    g.perm.r = true → g.perm.x = true → Memory.readBytes s.mem s.pc.toNat 4 = encodeBytes i →
    ∃ t, exec i s = .next t ∧ t.pc = s.pc ∧ step s = .next (t.writePc (BitVec.ofNat 64 (s.pc.toNat + 4)))) ∧
  ∀ (m : DecodeMode) (s : State) (w : InstrWord) (i : Instr), fetch s = .next (w, 4) → decode m w = .ok i →
    stepIn m s =
      match exec i s with
      | .next t => .next (t.writePc (BitVec.ofNat 64 (t.pc.toNat + 4)))
      | .fault r => .fault r
      | .refused r => .refused r

/-- R147: the faults of a step in the order of the pipeline, the first one reported; load and store apply the first two
tests with their own permission. -/
def Obligations.FaultsAreFoundInPipelineOrder : Prop :=
  (∀ (m : DecodeMode) (s : State),
    (findContaining s.segs s.pc 4 = none → stepIn m s = .fault .unmapped) ∧
    ∀ g, findContaining s.segs s.pc 4 = some g →
      (¬ (g.perm.r = true ∧ g.perm.x = true) → stepIn m s = .fault .permissionDenied) ∧
      (g.perm.r = true → g.perm.x = true → ∃ w, fetch s = .next (w, 4) ∧
        (decode m w = .error .unsupported → stepIn m s = .fault .unsupported) ∧
        ∀ i, decode m w = .ok i →
          (i.fields.funct7 ≠ i.requiredFunct7 → stepIn m s = .fault .unsupportedVariant) ∧
          (i.fields.funct7 = i.requiredFunct7 → ∃ t, stepIn m s = .next t))) ∧
  ∀ (s : State) (a v : Word) (bits n : Nat), accessBytes bits = some n →
    (findContaining s.segs a n = none → load s a bits = .fault .unmapped ∧ store s a bits v = .fault .unmapped) ∧
    ∀ g, findContaining s.segs a n = some g →
      (g.perm.r = false → load s a bits = .fault .permissionDenied) ∧
      (g.perm.w = false → store s a bits v = .fault .permissionDenied) ∧
      (g.perm.r = true → ∃ x, load s a bits = .next x) ∧ (g.perm.w = true → ∃ t, store s a bits v = .next t)

/-- R92 (spec decisions D2, D3, log entry 8; D7, log entry 11): after a successful step pc is the old pc plus 4 modulo
2^64; a pc above 2^64 - 4 is Unmapped; the wrap happens only from 2^64 - 4, to 0. Nothing but one register and pc
changes (R90). -/
def Obligations.StepAdvancesPcByFour : Prop :=
  ∀ (m : DecodeMode) (s : State), s.wf →
    (2 ^ 64 - 4 < s.pc.toNat → stepIn m s = .fault .unmapped) ∧
    ∀ t, stepIn m s = .next t →
      (s.pc.toNat < 2 ^ 64 - 4 → t.pc.toNat = s.pc.toNat + 4) ∧
      (s.pc.toNat = 2 ^ 64 - 4 → t.pc = 0 ∧ ∃ g ∈ s.segs, g.stop = 2 ^ 64 ∧ g.perm.r = true ∧ g.perm.x = true) ∧
      SameMemory s t ∧ ∃ (d : Reg) (v : Word), ∀ r : Reg, t.readReg r = if r = d ∧ d ≠ 0 then v else s.readReg r

/-- R144: in exact mode a step never raises UnsupportedVariant; and no step of either mode is refused. That the
machine's step is in exact mode is the spec's decision D1 (log entry 1). -/
def Obligations.ExactStepNeverRaisesUnsupportedVariant : Prop :=
  (∀ s : State, step s ≠ .fault .unsupportedVariant) ∧
  ∀ (m : DecodeMode) (s : State) (r : Refusal), stepIn m s ≠ .refused r

/-- R16 (spec decisions D2, D6, log entries 8 and 10): a step keeps pc modulo 4, and fetch asks no alignment: at any pc,
whatever it is modulo 4, a readable and executable segment around the window is enough. -/
def Obligations.PcKeepsItsResidueAndNeedsNoAlignment : Prop :=
  (∀ (m : DecodeMode) (s t : State), stepIn m s = .next t → t.pc.toNat % 4 = s.pc.toNat % 4) ∧
  ∀ (s : State) (g : Segment), s.wf → g ∈ s.segs → g.start.toNat ≤ s.pc.toNat → s.pc.toNat + 4 ≤ g.stop →
    g.perm.r = true → g.perm.x = true → ∃ w, fetch s = .next (w, 4)

/-- R80: fetch. -/
def Obligations.FetchAssemblesFourBytes : Prop :=
  ∀ s : State, s.wf →
    ((∀ g ∈ s.segs, ¬ (g.start.toNat ≤ s.pc.toNat ∧ s.pc.toNat + 4 ≤ g.stop)) → fetch s = .fault .unmapped) ∧
    ∀ g ∈ s.segs, g.start.toNat ≤ s.pc.toNat → s.pc.toNat + 4 ≤ g.stop →
      (¬ (g.perm.r = true ∧ g.perm.x = true) → fetch s = .fault .permissionDenied) ∧
      (g.perm.r = true → g.perm.x = true → ∃ w : InstrWord, fetch s = .next (w, 4) ∧
        ∀ k < 4, s.byteAt (s.pc.toNat + k) = some (w.extractLsb' (8 * k) 8))

/-! ## Runs (spec/40_fetch_decode_execute.md R95, R96) -/

/-- R95, over the step of the spec's decision D2 (log entry 8): a run is straight-line code: after n successful steps pc
is n times 4 further, modulo 2^64, and no segment and no byte has changed, so the program is the one it started with. -/
def Obligations.RunsAreStraightLine : Prop :=
  ∀ (m : DecodeMode) (n : Nat) (s t : State), runIn m n s = .next t →
    t.pc = BitVec.ofNat 64 (s.pc.toNat + 4 * n) ∧ SameMemory s t

/-- R95, R96, over the step and the end of a run of the spec's decisions D2 and D4 (log entries 8, 9): if the step
faults at some address of the straight line from pc on, whatever the registers hold there, the run ends, there or
before, and how it ends is determined. -/
def Obligations.RunEndsWhereThePathFaults : Prop :=
  (∀ (m : DecodeMode) (s : State) (k : Nat) (r : Fault),
    stepIn m (s.writePc (BitVec.ofNat 64 (s.pc.toNat + 4 * k))) = .fault r →
    ∃ n t q, n ≤ k ∧ RunEnds m s n t q ∧ t.pc = BitVec.ofNat 64 (s.pc.toNat + 4 * n)) ∧
  ∀ (m : DecodeMode) (s : State) (n k : Nat) (t u : State) (r q : Fault),
    RunEnds m s n t r → RunEnds m s k u q → n = k ∧ t = u ∧ r = q

/-- R15, R81, R82, R95: register values never steer control: two states with one pc and one address space run alike, to
the same fault after the same number of steps, or to states that agree on pc and the address space again. The step is
that of the spec's decision D2 (log entry 8). -/
def Obligations.RegistersNeverSteerControl : Prop :=
  ∀ (m : DecodeMode) (n : Nat) (s u : State), u.pc = s.pc → u.segs = s.segs → u.mem = s.mem →
    (∀ r, runIn m n s = .fault r → runIn m n u = .fault r) ∧
    ∀ t, runIn m n s = .next t → ∃ v, runIn m n u = .next v ∧ v.pc = t.pc ∧ v.segs = t.segs ∧ v.mem = t.mem

/-! ## The address space (spec/10_state.md R22, spec/20_memory.md) -/

/-- R22, R47: every step, in either mode and from any sound state, keeps the segment table sound, the byte store
canonical and every listed byte inside a segment. The canonical form is that of log entry 20, the segments'
well-formedness the spec's decision D8 (log entry 12). -/
def Obligations.StepKeepsTheAddressSpaceSound : Prop :=
  ∀ (m : DecodeMode) (s t : State), s.wf → stepIn m s = .next t → t.wf ∧ t.segs = s.segs ∧ t.mem = s.mem

/-- R22: so does every move of the host the spec gives a meaning, succeeding or failing. That a move cannot bring in an
ill-formed segment is the spec's decision D8 (log entry 12); the canonical form is that of log entry 20. -/
def Obligations.HostMovesKeepTheAddressSpaceSound : Prop :=
  ∀ (v : HostMove) (s t : State), s.wf → hostMove v s = .ok t → t.wf

/-- R22, R174: the loader hands over a sound state, and every state a Process can then be in is sound. That no segment
is empty or passes 2^64 (R22 b) rests on the spec's decision D8 (log entry 12); the canonical form is that of log entry
20. -/
def Obligations.EveryReachableStateIsSound : Prop :=
  ∀ (m : DecodeMode) (s : State), Reachable m s → s.wf

/-- R22 (a): true overlap of two well-formed segments is a shared byte address; two segments of a sound table share
none. Well-formed is R22 (b), the spec's decision D8 (log entry 12). -/
def Obligations.OverlapIsASharedAddress : Prop :=
  (∀ g h : Segment, g.fits = true → h.fits = true →
    (g.overlaps h = true ↔ ∃ a, g.covers a = true ∧ h.covers a = true)) ∧
  ∀ (s : State) (g h : Segment) (a : Nat), s.wf → g ∈ s.segs → h ∈ s.segs → g.covers a = true → h.covers a = true → g = h

/-- R33 (its last clause is the spec's decision D7, log entry 11): the segment that wholly contains the window, or none:
partial overlap is never satisfied by two segments jointly, and a window that passes 2^64 is in none. -/
def Obligations.WindowLiesInOneSegmentOrNone : Prop :=
  ∀ (s : State) (a : Word) (n : Nat), s.wf → 1 ≤ n →
    (∀ g ∈ s.segs, g.start.toNat ≤ a.toNat → a.toNat + n ≤ g.stop → findContaining s.segs a n = some g) ∧
    ((∀ g ∈ s.segs, ¬ (g.start.toNat ≤ a.toNat ∧ a.toNat + n ≤ g.stop)) → findContaining s.segs a n = none) ∧
    (∀ g ∈ s.segs, g.covers a.toNat = true → g.stop < a.toNat + n → findContaining s.segs a n = none) ∧
    (2 ^ 64 < a.toNat + n → findContaining s.segs a n = none)

/-- R34: load; the zero-extension to 64 bits is the spec's decision D12 (log entry 15). -/
def Obligations.LoadAssemblesLittleEndian : Prop :=
  ∀ (s : State) (a : Word) (bits n : Nat), s.wf → accessBytes bits = some n →
    ((∀ g ∈ s.segs, g.contains a.toNat n = false) → load s a bits = .fault .unmapped) ∧
    ∀ g ∈ s.segs, g.contains a.toNat n = true →
      (g.perm.r = false → load s a bits = .fault .permissionDenied) ∧
      (g.perm.r = true → ∃ v, load s a bits = .next v ∧ v.toNat < 2 ^ bits ∧
        ∀ k < n, s.byteAt (a.toNat + k) = some (v.extractLsb' (8 * k) 8))

/-- R35: store: the same checks with W alone, the little-endian bytes of the value in the window, and nothing else
changed; that a wider value keeps its low bytes only is the spec's decision D12 (log entry 15). -/
def Obligations.StoreWritesItsWindowOnly : Prop :=
  ∀ (s : State) (a v : Word) (bits n : Nat), s.wf → accessBytes bits = some n →
    ((∀ g ∈ s.segs, g.contains a.toNat n = false) → store s a bits v = .fault .unmapped) ∧
    ∀ g ∈ s.segs, g.contains a.toNat n = true →
      (g.perm.w = false → store s a bits v = .fault .permissionDenied) ∧
      (g.perm.w = true → ∃ t, store s a bits v = .next t ∧
        (∀ k < n, t.byteAt (a.toNat + k) = some (v.extractLsb' (8 * k) 8)) ∧
        (∀ x, ¬ (a.toNat ≤ x ∧ x < a.toNat + n) → t.byteAt x = s.byteAt x) ∧
        t.segs = s.segs ∧ t.pc = s.pc ∧ ∀ r, t.readReg r = s.readReg r)

/-- R37: a window no segment contains is Unmapped in every kind of access, whatever permissions are near; and
PermissionDenied means that a containing segment was found. -/
def Obligations.ContainmentBeforePermission : Prop :=
  (∀ (s : State) (a v : Word) (bits n : Nat), accessBytes bits = some n →
    ((∀ g ∈ s.segs, g.contains a.toNat n = false) →
      load s a bits = .fault .unmapped ∧ store s a bits v = .fault .unmapped) ∧
    (load s a bits = .fault .permissionDenied ∨ store s a bits v = .fault .permissionDenied →
      ∃ g ∈ s.segs, g.contains a.toNat n = true)) ∧
  ∀ s : State,
    ((∀ g ∈ s.segs, g.contains s.pc.toNat 4 = false) → fetch s = .fault .unmapped) ∧
    (fetch s = .fault .permissionDenied → ∃ g ∈ s.segs, g.contains s.pc.toNat 4 = true)

/-- R45: the round-trip law, at every width and address; that it holds at misaligned ones is the spec's decision D6 (log
entry 10), and for wider values its decision D12 (log entry 15). -/
def Obligations.StoreThenLoadReturnsTheValue : Prop :=
  ∀ (s : State) (a v : Word) (bits n : Nat) (g : Segment), s.wf → accessBytes bits = some n → g ∈ s.segs →
    g.contains a.toNat n = true → g.perm.r = true → g.perm.w = true →
    ∃ t, store s a bits v = .next t ∧ load t a bits = .next (BitVec.ofNat 64 (v.toNat % 2 ^ bits)) ∧
      (v.toNat < 2 ^ bits → load t a bits = .next v)

/-- R40, R41: mixed widths see one byte array: 8-bit loads of a 64-bit store, a 64-bit load of two 32-bit stores, and a
32-bit load at pc against fetch. That the 8-bit and 32-bit results stand zero-extended in 64 bits is the spec's
decision D12 (log entry 15). -/
def Obligations.MixedWidthsSeeOneByteArray : Prop :=
  ∀ (s : State) (a : Word) (g : Segment), s.wf → g ∈ s.segs → g.perm.r = true →
    (∀ (v : Word) (k : Nat), g.contains a.toNat 8 = true → g.perm.w = true → k < 8 →
      ∃ t, store s a 64 v = .next t ∧
        load t (BitVec.ofNat 64 (a.toNat + k)) 8 = .next ((v.extractLsb' (8 * k) 8).setWidth 64)) ∧
    (∀ x y : BitVec 32, g.contains a.toNat 8 = true → g.perm.w = true →
      ∃ t u, store s a 32 (x.setWidth 64) = .next t ∧
        store t (BitVec.ofNat 64 (a.toNat + 4)) 32 (y.setWidth 64) = .next u ∧ load u a 64 = .next (y ++ x)) ∧
    (∀ w : InstrWord, fetch s = .next (w, 4) → load s s.pc 32 = .next (w.setWidth 64))

/-- R52 (spec decision D21, log entry 24): a store is seen by the fetch after it: every stored byte of the window is the
byte the fetched word has there. -/
def Obligations.FetchSeesEarlierStores : Prop :=
  ∀ (s t : State) (a v : Word) (bits n : Nat) (w : InstrWord), s.wf → accessBytes bits = some n →
    store s a bits v = .next t → fetch t = .next (w, 4) →
    ∀ j < n, ∀ k < 4, a.toNat + j = t.pc.toNat + k → w.extractLsb' (8 * k) 8 = v.extractLsb' (8 * j) 8

/-- R43: exactly four widths are served; that any other request is refused, in either direction, is the spec's decision
D13 (log entry 16). -/
def Obligations.WidthsOutsideTheDomainAreRefused : Prop :=
  ∀ (s : State) (a v : Word) (bits : Nat), bits ≠ 8 → bits ≠ 16 → bits ≠ 32 → bits ≠ 64 →
    load s a bits = .refused (.widthOutsideDomain bits) ∧ store s a bits v = .refused (.widthOutsideDomain bits)

/-- R31: add_segment; the refusal, the bit positions and the order of the two tests are the spec's decisions D8, D9, D10
(log entries 12, 13). -/
def Obligations.AddSegmentContract : Prop :=
  ∀ (s : State) (start : Word) (length : Nat) (bits : BitVec 8),
    (¬ (1 ≤ length ∧ start.toNat + length ≤ 2 ^ 64) → addSegment s start length bits = .refused .illFormedSegment) ∧
    (1 ≤ length → start.toNat + length ≤ 2 ^ 64 →
      (bits = 0 ∨ 8 ≤ bits.toNat → addSegment s start length bits = .fault .invalidPermissions) ∧
      (bits ≠ 0 → bits.toNat < 8 →
        ((∃ h ∈ s.segs, h.start.toNat < start.toNat + length ∧ start.toNat < h.stop) →
          addSegment s start length bits = .fault .overlapError) ∧
        ((∀ h ∈ s.segs, ¬ (h.start.toNat < start.toNat + length ∧ start.toNat < h.stop)) →
          ∃ g t, addSegment s start length bits = .next (g, t) ∧ g.start = start ∧ g.length = length ∧
            g.perm.r = bits.getLsbD 0 ∧ g.perm.w = bits.getLsbD 1 ∧ g.perm.x = bits.getLsbD 2 ∧
            (∀ h, h ∈ t.segs ↔ h = g ∨ h ∈ s.segs) ∧
            (∀ x, g.covers x = true → t.byteAt x = some 0) ∧
            (∀ x, g.covers x = false → t.byteAt x = s.byteAt x) ∧
            t.pc = s.pc ∧ ∀ r, t.readReg r = s.readReg r)))

/-- R32: remove_segment: every address of the segment's range becomes unmapped and nothing else changes; that one not in
the table is a no-op is the spec's decision D11 (log entry 14). A segment is identified by start, length and permissions
(log entry 28). -/
def Obligations.RemoveSegmentContract : Prop :=
  ∀ (s : State) (g : Segment), s.wf →
    (g ∈ s.segs → (∀ h, h ∈ (removeSegment s g).segs ↔ h ∈ s.segs ∧ h ≠ g) ∧
      (∀ x, g.covers x = true → (removeSegment s g).byteAt x = none) ∧
      (∀ x, g.covers x = false → (removeSegment s g).byteAt x = s.byteAt x) ∧
      (removeSegment s g).pc = s.pc ∧ ∀ r, (removeSegment s g).readReg r = s.readReg r) ∧
    (g ∉ s.segs → removeSegment s g = s)

/-! ## Launch (spec/70_reset_and_hazards.md) -/

/-- R27, R171 to R174 at the values of log entries 2, 3 and 4, which are the model's choice where the spec leaves the
parameter OPEN, and SP_INDEX = 2, the spec's decision D14 (log entry 3, PRESUMED): what State.reset holds, that it is
sound, and that the loader produces it. -/
def Obligations.ResetHoldsTheLaunchValues : Prop :=
  State.reset.pc = 0x0000000000400000 ∧
  (∀ i : Reg, State.reset.readReg i = if i = 2 then 0x0000800000000000 else 0) ∧
  State.reset.segs = [{ start := 0x00007FFFFFE00000, length := 2097152, perm := { r := true, w := true, x := false } }] ∧
  (∀ a, 0x00007FFFFFE00000 ≤ a → a < 0x0000800000000000 → State.reset.byteAt a = some 0) ∧
  State.reset.wf ∧
  ∃ file h, readFileHeader file = some h ∧ h.headerCount = 0 ∧ loadProcess file none 0x00007FFFFFE00000 = .next State.reset

/-- R171 to R173: whatever the executable, the stack limit and the draw of the stack base, every register but the stack
pointer is zero at launch; pc is the file header's entry point, read where log entry 22 says (PRESUMED); and the stack
pointer, register SP_INDEX, which is 2 by the spec's decision D14 (log entry 3, PRESUMED), is STACK_BASE + STACK_LIMIT
modulo 2^64. -/
def Obligations.LaunchRegisters : Prop :=
  ∀ (file : List Byte) (limit : Option Nat) (base : Word) (s : State), loadProcess file limit base = .next s →
    (∀ i : Reg, i ≠ Config.spIndex → s.readReg i = 0) ∧
    (∃ h, readFileHeader file = some h ∧ s.pc = h.entry) ∧
    (s.readReg Config.spIndex).toNat = (base.toNat + limit.getD 2097152) % 2 ^ 64

/-- R174, R179: the address space at launch: every header of the table was read at its place (log entry 22), and there
is one segment for each loadable one, with the permissions its flags name (log entry 6), holding the file's bytes and
then zeros, and the zeroed stack segment, and no other. That the file holds file offset + file size bytes, also where
file size is 0, is the model's choice (log entry 27). -/
def Obligations.LaunchAddressSpace : Prop :=
  ∀ (file : List Byte) (limit : Option Nat) (base : Word) (s : State), loadProcess file limit base = .next s →
    ∃ h, readFileHeader file = some h ∧
    (∀ i < h.headerCount, ∃ p, readProgramHeader file (h.tableOffset + i * h.entrySize) = some p ∧
      (p.headerType = 1 →
        { start := p.virtualAddress, length := p.memorySize,
          perm := { r := p.flags.testBit 2, w := p.flags.testBit 1, x := p.flags.testBit 0 } } ∈ s.segs ∧
        p.fileSize ≤ p.memorySize ∧ p.fileOffset + p.fileSize ≤ file.length ∧
        ∀ k < p.memorySize, s.byteAt (p.virtualAddress.toNat + k) =
          some (if k < p.fileSize then file.getD (p.fileOffset + k) 0 else 0))) ∧
    ({ start := base, length := limit.getD 2097152, perm := { r := true, w := true, x := false } } ∈ s.segs ∧
      ∀ k < limit.getD 2097152, s.byteAt (base.toNat + k) = some 0) ∧
    ∀ g ∈ s.segs, g = { start := base, length := limit.getD 2097152, perm := { r := true, w := true, x := false } } ∨
      ∃ i < h.headerCount, ∃ p, readProgramHeader file (h.tableOffset + i * h.entrySize) = some p ∧ p.headerType = 1 ∧
        g = { start := p.virtualAddress, length := p.memorySize,
              perm := { r := p.flags.testBit 2, w := p.flags.testBit 1, x := p.flags.testBit 0 } }

/-- R178 and 95_test_vectors.md V9, with the ELF numbers of the spec's general knowledge G7 (log entry 6): a header
launches only if all eight checks pass, the first violated check names the error, and nothing is loaded then. -/
def Obligations.FirstViolatedHeaderCheckNamesTheError : Prop :=
  ∀ (file : List Byte) (h : ElfHeader) (limit : Option Nat) (base : Word), readFileHeader file = some h →
    (h.magic ≠ [0x7F, 0x45, 0x4C, 0x46] → loadProcess file limit base = .fault .badMagic) ∧
    (h.magic = [0x7F, 0x45, 0x4C, 0x46] →
      (h.fileClass ≠ 2 → loadProcess file limit base = .fault .badClass) ∧
      (h.fileClass = 2 →
        (h.dataEncoding ≠ 1 → loadProcess file limit base = .fault .badDataEncoding) ∧
        (h.dataEncoding = 1 →
          (h.identVersion ≠ 1 → loadProcess file limit base = .fault .badIdentVersion) ∧
          (h.identVersion = 1 →
            (h.osAbi ≠ 0 → loadProcess file limit base = .fault .badOsAbi) ∧
            (h.osAbi = 0 →
              (h.fileType ≠ 2 → loadProcess file limit base = .fault .badFileType) ∧
              (h.fileType = 2 →
                (h.machine ≠ 243 → loadProcess file limit base = .fault .badMachine) ∧
                (h.machine = 243 → h.version ≠ 1 → loadProcess file limit base = .fault .badVersion)))))))

/-- R7: which host moves are outside the domain (the spec's decisions D8 and D13, log entries 12 and 16): a write of
another width and an ill-formed segment. They have no state after them; every other move has one, and a failing one
leaves the state as it was (R38). -/
def Obligations.HostMoveIsRefusedOnlyOutsideTheDomain : Prop :=
  (∀ (s : State) (a v : Word) (bits : Nat),
    (bits ≠ 8 ∧ bits ≠ 16 ∧ bits ≠ 32 ∧ bits ≠ 64 →
      hostMove (.writeMemory a bits v) s = .error (.widthOutsideDomain bits)) ∧
    (bits = 8 ∨ bits = 16 ∨ bits = 32 ∨ bits = 64 → ∃ t, hostMove (.writeMemory a bits v) s = .ok t ∧
      (store s a bits v = .next t ∨ ((∃ r, store s a bits v = .fault r) ∧ t = s)))) ∧
  (∀ (s : State) (start : Word) (length : Nat) (perm : BitVec 8),
    (¬ (1 ≤ length ∧ start.toNat + length ≤ 2 ^ 64) →
      hostMove (.addSegment start length perm) s = .error .illFormedSegment) ∧
    (1 ≤ length → start.toNat + length ≤ 2 ^ 64 → ∃ t, hostMove (.addSegment start length perm) s = .ok t ∧
      ((∃ g, addSegment s start length perm = .next (g, t)) ∨
        ((∃ e, addSegment s start length perm = .fault e) ∧ t = s)))) ∧
  ∀ (s : State) (g : Segment) (i : Reg) (x y : Word) (h : Handler) (w : InstrWord),
    hostMove (.removeSegment g) s = .ok (removeSegment s g) ∧ hostMove (.writeReg i x) s = .ok (s.writeReg i x) ∧
    hostMove (.writePc y) s = .ok (s.writePc y) ∧
    ∃ t, hostMove (.execute h w) s = .ok t ∧
      (execute h w s = .next t ∨ (execute h w s = .fault .unsupportedVariant ∧ t = s))

/-- R177: the fields of a file header and of a program header are read little-endian from the places the ELF64 format
gives them (PRESUMED, log entry 22). That a header can be read exactly when the file holds all its bytes is the model's
choice (log entry 27, DESIGN CHOICE). -/
def Obligations.ElfFieldsAreReadFromTheirPlaces : Prop :=
  (∀ file : List Byte, (file.length < 64 → readFileHeader file = none) ∧
    (64 ≤ file.length → ∃ h, readFileHeader file = some h ∧
      h.magic = [file.getD 0 0, file.getD 1 0, file.getD 2 0, file.getD 3 0] ∧
      h.fileClass = (file.getD 4 0).toNat ∧ h.dataEncoding = (file.getD 5 0).toNat ∧
      h.identVersion = (file.getD 6 0).toNat ∧ h.osAbi = (file.getD 7 0).toNat ∧
      h.fileType = (file.getD 16 0).toNat + 256 * (file.getD 17 0).toNat ∧
      h.machine = (file.getD 18 0).toNat + 256 * (file.getD 19 0).toNat ∧
      (h.version < 2 ^ 32 ∧ ∀ k < 4, BitVec.ofNat 8 (h.version / 2 ^ (8 * k)) = file.getD (20 + k) 0) ∧
      (∀ k < 8, h.entry.extractLsb' (8 * k) 8 = file.getD (24 + k) 0) ∧
      (h.tableOffset < 2 ^ 64 ∧ ∀ k < 8, BitVec.ofNat 8 (h.tableOffset / 2 ^ (8 * k)) = file.getD (32 + k) 0) ∧
      h.entrySize = (file.getD 54 0).toNat + 256 * (file.getD 55 0).toNat ∧
      h.headerCount = (file.getD 56 0).toNat + 256 * (file.getD 57 0).toNat)) ∧
  ∀ (file : List Byte) (o : Nat), (file.length < o + 56 → readProgramHeader file o = none) ∧
    (o + 56 ≤ file.length → ∃ p, readProgramHeader file o = some p ∧
      (p.headerType < 2 ^ 32 ∧ ∀ k < 4, BitVec.ofNat 8 (p.headerType / 2 ^ (8 * k)) = file.getD (o + k) 0) ∧
      (p.flags < 2 ^ 32 ∧ ∀ k < 4, BitVec.ofNat 8 (p.flags / 2 ^ (8 * k)) = file.getD (o + 4 + k) 0) ∧
      (p.fileOffset < 2 ^ 64 ∧ ∀ k < 8, BitVec.ofNat 8 (p.fileOffset / 2 ^ (8 * k)) = file.getD (o + 8 + k) 0) ∧
      (∀ k < 8, p.virtualAddress.extractLsb' (8 * k) 8 = file.getD (o + 16 + k) 0) ∧
      (p.fileSize < 2 ^ 64 ∧ ∀ k < 8, BitVec.ofNat 8 (p.fileSize / 2 ^ (8 * k)) = file.getD (o + 32 + k) 0) ∧
      p.memorySize < 2 ^ 64 ∧ ∀ k < 8, BitVec.ofNat 8 (p.memorySize / 2 ^ (8 * k)) = file.getD (o + 40 + k) 0)

/-- R159, R179, R183: a launch fails for a header of the table the file does not hold, and for a loadable header that is
larger in the file than in memory or whose bytes the file does not hold; no Process is handed over then. The order of
the tests is log entry 5; that file_size 0 past the file's end fails too is log entry 27. -/
def Obligations.LaunchFailsOnUnreadableHeadersAndSegments : Prop :=
  ∀ (file : List Byte) (h : ElfHeader) (limit : Option Nat) (base : Word) (i : Nat),
    readFileHeader file = some h → i < h.headerCount →
    (file.length < h.tableOffset + i * h.entrySize + 56 → ∀ s, loadProcess file limit base ≠ .next s) ∧
    ∀ p, readProgramHeader file (h.tableOffset + i * h.entrySize) = some p → p.headerType = 1 →
      (p.memorySize < p.fileSize ∨ file.length < p.fileOffset + p.fileSize →
        ∀ s, loadProcess file limit base ≠ .next s) ∧
      ∀ s : State, (∃ g t, addSegment s p.virtualAddress p.memorySize (translateFlags p.flags).toBits = .next (g, t)) →
        (p.memorySize < p.fileSize → loadSegment file p s = .fault .segmentMemoryTooSmall) ∧
        (p.fileSize ≤ p.memorySize → file.length < p.fileOffset + p.fileSize →
          loadSegment file p s = .fault .cannotReadSegment)
end

