-- ==== Sys2Proof/Laws/Encoding.lean ====
section
/-! SUPPORT. Byte order and encoding: the little-endian round trips, the fields of an encoded word, and what each table
mask sees of it (R40, R41, R61, R62, R64). -/

namespace Sys2Proof

@[simp] theorem length_leBytes (n v : Nat) : (leBytes n v).length = n := by
  induction n generalizing v with
  | zero => rfl
  | succ n ih => simp [leBytes, ih]

/-- Assembling the low n bytes of a value gives the value modulo 2^(8n) (R40). -/
theorem leNat_leBytes (n v : Nat) : leNat (leBytes n v) = v % 256 ^ n := by
  induction n generalizing v with
  | zero => simp [leBytes, leNat, Nat.mod_one]
  | succ n ih =>
    simp only [leBytes, leNat, ih, BitVec.toNat_ofNat]
    rw [show 256 ^ (n + 1) = 256 * 256 ^ n by rw [Nat.pow_succ, Nat.mul_comm], Nat.mod_mul]

/-- n bytes assemble to a value below 2^(8n) (R34). -/
theorem leNat_lt (bs : List Byte) : leNat bs < 256 ^ bs.length := by
  induction bs with
  | nil => simp [leNat]
  | cons b bs ih =>
    have := b.isLt
    simp only [leNat, List.length_cons, Nat.pow_succ]
    omega

/-- A value of n bytes is decomposed to the bytes it was assembled from. -/
theorem leBytes_leNat (bs : List Byte) : leBytes bs.length (leNat bs) = bs := by
  induction bs with
  | nil => rfl
  | cons b bs ih =>
    have hb := b.isLt
    have h1 : (b.toNat + 256 * leNat bs) / 256 = leNat bs := by omega
    have h2 : BitVec.ofNat 8 (b.toNat + 256 * leNat bs) = b := by
      apply BitVec.eq_of_toNat_eq
      simp only [BitVec.toNat_ofNat]
      omega
    simp only [List.length_cons, leBytes, leNat, h1, h2, ih]

/-- The word of the four bytes of a word is that word (R41). -/
theorem wordOfBytes_leBytes (w : InstrWord) : wordOfBytes (leBytes 4 w.toNat) = w := by
  apply BitVec.eq_of_toNat_eq
  have := w.isLt
  simp only [wordOfBytes, leNat_leBytes, BitVec.toNat_ofNat]
  omega

/-- The fields of an encoded word are the encoded ones (R61, R62). -/
theorem funct7_encodeFields (f : RFields) (f3 : BitVec 3) (op : BitVec 7) : funct7 (encodeFields f f3 op) = f.funct7 := by
  apply BitVec.eq_of_getLsbD_eq
  intro i hi
  simp only [funct7, encodeFields, BitVec.getLsbD_extractLsb', BitVec.getLsbD_append]
  interval_cases i <;> simp

theorem funct3_encodeFields (f : RFields) (f3 : BitVec 3) (op : BitVec 7) : funct3 (encodeFields f f3 op) = f3 := by
  apply BitVec.eq_of_getLsbD_eq
  intro i hi
  simp only [funct3, encodeFields, BitVec.getLsbD_extractLsb', BitVec.getLsbD_append]
  interval_cases i <;> simp

theorem opcode_encodeFields (f : RFields) (f3 : BitVec 3) (op : BitVec 7) : opcode (encodeFields f f3 op) = op := by
  apply BitVec.eq_of_getLsbD_eq
  intro i hi
  simp only [opcode, encodeFields, BitVec.getLsbD_extractLsb', BitVec.getLsbD_append]
  interval_cases i <;> simp

theorem rd_encodeFields (f : RFields) (f3 : BitVec 3) (op : BitVec 7) : rd (encodeFields f f3 op) = f.rd := by
  have : (encodeFields f f3 op).extractLsb' 7 5 = BitVec.ofFin (w := 5) f.rd := by
    apply BitVec.eq_of_getLsbD_eq
    intro i hi
    simp only [encodeFields, BitVec.getLsbD_extractLsb', BitVec.getLsbD_append]
    interval_cases i <;> simp
  simp [rd, this]

theorem rs1_encodeFields (f : RFields) (f3 : BitVec 3) (op : BitVec 7) : rs1 (encodeFields f f3 op) = f.rs1 := by
  have : (encodeFields f f3 op).extractLsb' 15 5 = BitVec.ofFin (w := 5) f.rs1 := by
    apply BitVec.eq_of_getLsbD_eq
    intro i hi
    simp only [encodeFields, BitVec.getLsbD_extractLsb', BitVec.getLsbD_append]
    interval_cases i <;> simp
  simp [rs1, this]

theorem rs2_encodeFields (f : RFields) (f3 : BitVec 3) (op : BitVec 7) : rs2 (encodeFields f f3 op) = f.rs2 := by
  have : (encodeFields f f3 op).extractLsb' 20 5 = BitVec.ofFin (w := 5) f.rs2 := by
    apply BitVec.eq_of_getLsbD_eq
    intro i hi
    simp only [encodeFields, BitVec.getLsbD_extractLsb', BitVec.getLsbD_append]
    interval_cases i <;> simp
  simp [rs2, this]

theorem fieldsOf_encodeFields (f : RFields) (f3 : BitVec 3) (op : BitVec 7) : fieldsOf (encodeFields f f3 op) = f := by
  simp only [fieldsOf, funct7_encodeFields, rs2_encodeFields, rs1_encodeFields, rd_encodeFields]

/-- A word is the encoding of its own fields (R61: the six fields cover all 32 bits). -/
theorem encodeFields_fieldsOf (w : InstrWord) : encodeFields (fieldsOf w) (funct3 w) (opcode w) = w := by
  apply BitVec.eq_of_getLsbD_eq
  intro i hi
  simp only [encodeFields, fieldsOf, funct7, funct3, opcode, rd, rs1, rs2, BitVec.getLsbD_append,
    BitVec.ofFin_toFin, BitVec.getLsbD_extractLsb']
  interval_cases i <;> simp

/-- What the exact mask sees of a word: funct7, funct3 and opcode (R65). -/
theorem encodeFields_and_exactMask (f : RFields) (f3 : BitVec 3) (op : BitVec 7) :
    encodeFields f f3 op &&& 0xFE00707F = encodeFields { f with rs2 := 0, rs1 := 0, rd := 0 } f3 op := by
  apply BitVec.eq_of_getLsbD_eq
  intro i hi
  simp only [encodeFields, BitVec.getLsbD_and, BitVec.getLsbD_append]
  interval_cases i <;> simp

/-- What the general mask sees of a word: funct3 and opcode (R66). -/
theorem encodeFields_and_generalMask (f : RFields) (f3 : BitVec 3) (op : BitVec 7) :
    encodeFields f f3 op &&& 0x0000707F = encodeFields { funct7 := 0, rs2 := 0, rs1 := 0, rd := 0 } f3 op := by
  apply BitVec.eq_of_getLsbD_eq
  intro i hi
  simp only [encodeFields, BitVec.getLsbD_and, BitVec.getLsbD_append]
  interval_cases i <;> simp

end Sys2Proof
end

