-- ==== Sys2Proof/Laws/Memory.lean ====
section
/-! SUPPORT. The byte store: a read after a write, and that every memory operation keeps the canonical form. -/

namespace Sys2Proof.Machine

/-- A cell in front of a canonical store whose addresses all lie above it. -/
theorem Memory.wf_consCell {a : Nat} {b : Byte} {m : Memory} (hm : Memory.wf m) (ha : ∀ c ∈ m, a < c.1) :
    Memory.wf (Memory.consCell a b m) := by
  unfold Memory.consCell
  split
  · exact hm
  · rename_i hb
    exact ⟨List.pairwise_cons.2 ⟨ha, hm.1⟩, List.forall_mem_cons.2 ⟨hb, hm.2⟩⟩

/-- Every cell of a written store was there before or is the written one. -/
theorem Memory.mem_write {m : Memory} {a : Nat} {b : Byte} {c : Host.Cell} (h : c ∈ Memory.write m a b) :
    c ∈ m ∨ c = (a, b) := by
  induction m with
  | nil => simp only [Memory.write, Memory.consCell] at h; split at h <;> simp_all
  | cons d m ih =>
    simp only [Memory.write, Memory.consCell] at h
    split at h
    · split at h <;> simp_all; tauto
    · split at h
      · split at h <;> simp_all; tauto
      · rcases List.mem_cons.1 h with h | h
        · exact .inl (h ▸ List.mem_cons_self ..)
        · exact (ih h).imp (List.mem_cons_of_mem _) id

/-- A byte write keeps the canonical form. -/
theorem Memory.wf_write {m : Memory} (hm : Memory.wf m) (a : Nat) (b : Byte) : Memory.wf (Memory.write m a b) := by
  induction m with
  | nil => exact Memory.wf_consCell hm (by simp)
  | cons c m ih =>
    obtain ⟨hp, hz⟩ := hm
    have ⟨hlt, hp'⟩ := List.pairwise_cons.1 hp
    have hm' : Memory.wf m := ⟨hp', fun d hd => hz d (List.mem_cons_of_mem _ hd)⟩
    unfold Memory.write
    split
    · rename_i h
      exact Memory.wf_consCell ⟨hp, hz⟩ (by simpa using ⟨h, fun x y hxy => h.trans (hlt (x, y) hxy)⟩)
    · split
      · rename_i _ h
        subst h
        exact Memory.wf_consCell hm' hlt
      · rename_i h1 h2
        refine ⟨List.pairwise_cons.2 ⟨fun d hd => ?_, (ih hm').1⟩, fun d hd => ?_⟩
        · rcases Memory.mem_write hd with hd | rfl
          · exact hlt d hd
          · simp only; omega
        · rcases List.mem_cons.1 hd with rfl | hd
          · exact hz _ (List.mem_cons_self ..)
          · exact (ih hm').2 d hd

/-- An address no cell lists reads as the unlisted value. -/
theorem Memory.read_of_not_listed {m : Memory} {a : Nat} (h : ∀ c ∈ m, c.1 ≠ a) : Memory.read m a = Memory.unlisted := by
  induction m with
  | nil => rfl
  | cons c m ih =>
    have := h c (List.mem_cons_self ..)
    simp only [Memory.read, if_neg (Ne.symm this)]
    exact ih fun d hd => h d (List.mem_cons_of_mem _ hd)

/-- A cell put in front is what its address reads, and other addresses read as before. -/
theorem Memory.read_consCell {a : Nat} {b : Byte} {m : Memory} (h : ∀ c ∈ m, c.1 ≠ a) (x : Nat) :
    Memory.read (Memory.consCell a b m) x = if x = a then b else Memory.read m x := by
  unfold Memory.consCell
  by_cases hb : b = Memory.unlisted
  · simp only [if_pos hb]
    split
    · rename_i hx; rw [hx, Memory.read_of_not_listed h, hb]
    · rfl
  · simp only [if_neg hb, Memory.read]

/-- A read after a byte write. -/
theorem Memory.read_write {m : Memory} (hm : Memory.wf m) (a : Nat) (b : Byte) (x : Nat) :
    Memory.read (Memory.write m a b) x = if x = a then b else Memory.read m x := by
  induction m with
  | nil => exact Memory.read_consCell (by simp) x
  | cons c m ih =>
    obtain ⟨hp, hz⟩ := hm
    have ⟨hlt, hp'⟩ := List.pairwise_cons.1 hp
    unfold Memory.write
    split
    · rename_i h
      refine Memory.read_consCell (fun d hd => ?_) x
      rcases List.mem_cons.1 hd with rfl | hd
      · omega
      · have := hlt d hd; omega
    · split
      · rename_i _ h
        rw [Memory.read_consCell (fun d hd => by have := hlt d hd; omega)]
        simp only [Memory.read, ← h]
        split <;> rfl
      · rename_i h1 h2
        simp only [Memory.read, ih ⟨hp', fun d hd => hz d (List.mem_cons_of_mem _ hd)⟩]
        by_cases hx : x = c.1
        · have : x ≠ a := fun e => h2 (e ▸ hx)
          simp [hx, Ne.symm h2]
        · simp [hx]

/-- Writing bytes keeps the canonical form. -/
theorem Memory.wf_writeBytes {m : Memory} (hm : Memory.wf m) (a : Nat) (bs : List Byte) :
    Memory.wf (Memory.writeBytes m a bs) := by
  induction bs generalizing m a with
  | nil => exact hm
  | cons b bs ih => exact ih (Memory.wf_write hm a b) (a + 1)

/-- Every cell after writing bytes was there before or lies in the written window. -/
theorem Memory.mem_writeBytes {m : Memory} {a : Nat} {bs : List Byte} {c : Host.Cell}
    (h : c ∈ Memory.writeBytes m a bs) : c ∈ m ∨ (a ≤ c.1 ∧ c.1 < a + bs.length) := by
  induction bs generalizing m a with
  | nil => exact .inl h
  | cons b bs ih =>
    rcases ih h with h | ⟨h1, h2⟩
    · rcases Memory.mem_write h with h | rfl
      · exact .inl h
      · exact .inr ⟨le_refl a, by simp⟩
    · exact .inr ⟨by omega, by simp only [List.length_cons]; omega⟩

/-- A read after writing bytes: the written byte inside the window, the old one outside. -/
theorem Memory.read_writeBytes {m : Memory} (hm : Memory.wf m) (a : Nat) (bs : List Byte) (x : Nat) :
    Memory.read (Memory.writeBytes m a bs) x =
      if a ≤ x ∧ x < a + bs.length then bs.getD (x - a) Memory.unlisted else Memory.read m x := by
  induction bs generalizing m a with
  | nil => simp only [Memory.writeBytes, List.length_nil, Nat.add_zero]; rw [if_neg (by omega)]
  | cons b bs ih =>
    simp only [Memory.writeBytes, ih (Memory.wf_write hm a b), Memory.read_write hm, List.length_cons]
    by_cases h1 : x = a
    · subst h1
      rw [if_neg (by omega), if_pos rfl, if_pos (by omega)]
      simp
    · by_cases h2 : a + 1 ≤ x ∧ x < a + 1 + bs.length
      · rw [if_pos h2, if_pos (by omega)]
        obtain ⟨k, rfl⟩ : ∃ k, x = a + 1 + k := ⟨x - (a + 1), by omega⟩
        have e1 : a + 1 + k - (a + 1) = k := by omega
        have e2 : a + 1 + k - a = k + 1 := by omega
        rw [e1, e2]
        simp
      · rw [if_neg h2, if_neg h1, if_neg (by omega)]

theorem Memory.length_readBytes (m : Memory) (a n : Nat) : (Memory.readBytes m a n).length = n := by
  induction n generalizing a with
  | zero => rfl
  | succ n ih => simp [Memory.readBytes, ih]

/-- The bytes of a window depend only on what its addresses read. -/
theorem Memory.readBytes_congr {m m' : Memory} {a a' n : Nat}
    (h : ∀ k < n, Memory.read m (a + k) = Memory.read m' (a' + k)) :
    Memory.readBytes m a n = Memory.readBytes m' a' n := by
  induction n generalizing a a' with
  | zero => rfl
  | succ n ih =>
    simp only [Memory.readBytes]
    rw [show Memory.read m a = Memory.read m' a' from h 0 (by omega)]
    rw [ih (a := a + 1) (a' := a' + 1) fun k hk => by
      have := h (k + 1) (by omega)
      rwa [show a + 1 + k = a + (k + 1) by omega, show a' + 1 + k = a' + (k + 1) by omega]]

/-- Reading a window gives the bytes just written to it. -/
theorem Memory.readBytes_writeBytes {m : Memory} (hm : Memory.wf m) (a : Nat) (bs : List Byte) :
    Memory.readBytes (Memory.writeBytes m a bs) a bs.length = bs := by
  suffices h : ∀ (m' : Memory) (n k : Nat), n + k = bs.length →
      (∀ x, a ≤ x → x < a + bs.length → Memory.read m' x = bs.getD (x - a) Memory.unlisted) →
      Memory.readBytes m' (a + k) n = bs.drop k by
    have := h (Memory.writeBytes m a bs) bs.length 0 rfl fun x h1 h2 => by
      rw [Memory.read_writeBytes hm, if_pos ⟨h1, h2⟩]
    simpa using this
  intro m' n
  induction n with
  | zero => intro k hk _; simp only [Memory.readBytes]; rw [List.drop_eq_nil_of_le (by omega)]
  | succ n ih =>
    intro k hk hr
    have hk' : k < bs.length := by omega
    simp only [Memory.readBytes, hr (a + k) (by omega) (by omega), Nat.add_assoc a k 1, ih (k + 1) (by omega) hr]
    rw [List.drop_eq_getElem_cons hk']
    simp [List.getD_eq_getElem?_getD, hk']

/-- Clearing a segment keeps the canonical form. -/
theorem Memory.wf_clear {m : Memory} (hm : Memory.wf m) (g : Segment) : Memory.wf (Memory.clear m g) :=
  ⟨hm.1.filter _, fun c hc => hm.2 c (List.mem_filter.1 hc).1⟩

/-- After clearing a segment its bytes read as zero and the others as before. -/
theorem Memory.read_clear (m : Memory) (g : Segment) (x : Nat) :
    Memory.read (Memory.clear m g) x = if g.covers x then Memory.unlisted else Memory.read m x := by
  induction m with
  | nil => simp [Memory.clear, Memory.read]
  | cons c m ih =>
    simp only [Memory.clear, List.filter_cons] at ih ⊢
    by_cases hc : g.covers c.1 = true
    · simp only [hc, Bool.not_true, Bool.false_eq_true, if_false, ih, Memory.read]
      by_cases hx : x = c.1
      · simp [hx, hc]
      · simp [hx]
    · simp only [Bool.not_eq_true] at hc
      simp only [hc, Bool.not_false, if_true, Memory.read, ih]
      by_cases hx : x = c.1
      · simp [hx, hc]
      · simp [hx]

end Sys2Proof.Machine
end

