-- ==== Sys2Proof/Laws/Outcome.lean ====
section
/-! SUPPORT. Sequencing of operations: what andThen answers, for each outcome of its first part and read back from each
outcome of the whole. -/

namespace Sys2Proof.Machine

variable {α β φ ρ : Type}

@[simp] theorem andThen_next (a : α) (k : α → Host.Outcome β φ ρ) : andThen (.next a) k = k a := rfl
@[simp] theorem andThen_fault (r : φ) (k : α → Host.Outcome β φ ρ) : andThen (.fault r) k = .fault r := rfl
@[simp] theorem andThen_refused (r : ρ) (k : α → Host.Outcome β φ ρ) : andThen (.refused r) k = .refused r := rfl

/-- The whole succeeds exactly when both parts do. -/
theorem andThen_eq_next {o : Host.Outcome α φ ρ} {k : α → Host.Outcome β φ ρ} {b : β} :
    andThen o k = .next b ↔ ∃ a, o = .next a ∧ k a = .next b := by
  cases o <;> simp [andThen]

/-- The whole faults exactly when the first part does, or the first succeeds and the second does. -/
theorem andThen_eq_fault {o : Host.Outcome α φ ρ} {k : α → Host.Outcome β φ ρ} {r : φ} :
    andThen o k = .fault r ↔ o = .fault r ∨ ∃ a, o = .next a ∧ k a = .fault r := by
  cases o <;> simp [andThen]

/-- The whole is refused exactly when the first part is, or the first succeeds and the second is. -/
theorem andThen_eq_refused {o : Host.Outcome α φ ρ} {k : α → Host.Outcome β φ ρ} {r : ρ} :
    andThen o k = .refused r ↔ o = .refused r ∨ ∃ a, o = .next a ∧ k a = .refused r := by
  cases o <;> simp [andThen]

end Sys2Proof.Machine
end

