-- ==== Sys2Proof/Laws/State.lean ====
section
/-! SUPPORT. One lemma per field per update of State, and the laws of the register file: what a read after a write gives
(R12). -/

namespace Sys2Proof.Machine

@[simp] theorem State.writePc_regs (s : State) (v : Word) : (s.writePc v).regs = s.regs := rfl
@[simp] theorem State.writePc_pc (s : State) (v : Word) : (s.writePc v).pc = v := rfl
@[simp] theorem State.writePc_segs (s : State) (v : Word) : (s.writePc v).segs = s.segs := rfl
@[simp] theorem State.writePc_mem (s : State) (v : Word) : (s.writePc v).mem = s.mem := rfl

@[simp] theorem State.advancePc_regs (s : State) (n : Nat) : (s.advancePc n).regs = s.regs := rfl
@[simp] theorem State.advancePc_pc (s : State) (n : Nat) : (s.advancePc n).pc = BitVec.ofNat 64 (s.pc.toNat + n) := rfl
@[simp] theorem State.advancePc_segs (s : State) (n : Nat) : (s.advancePc n).segs = s.segs := rfl
@[simp] theorem State.advancePc_mem (s : State) (n : Nat) : (s.advancePc n).mem = s.mem := rfl

@[simp] theorem State.withSegs_regs (s : State) (gs : List Segment) : (s.withSegs gs).regs = s.regs := rfl
@[simp] theorem State.withSegs_pc (s : State) (gs : List Segment) : (s.withSegs gs).pc = s.pc := rfl
@[simp] theorem State.withSegs_segs (s : State) (gs : List Segment) : (s.withSegs gs).segs = gs := rfl
@[simp] theorem State.withSegs_mem (s : State) (gs : List Segment) : (s.withSegs gs).mem = s.mem := rfl

@[simp] theorem State.withMem_regs (s : State) (m : Memory) : (s.withMem m).regs = s.regs := rfl
@[simp] theorem State.withMem_pc (s : State) (m : Memory) : (s.withMem m).pc = s.pc := rfl
@[simp] theorem State.withMem_segs (s : State) (m : Memory) : (s.withMem m).segs = s.segs := rfl
@[simp] theorem State.withMem_mem (s : State) (m : Memory) : (s.withMem m).mem = m := rfl

@[simp] theorem State.writeReg_pc (s : State) (i : Reg) (v : Word) : (s.writeReg i v).pc = s.pc := by
  unfold State.writeReg; split <;> rfl
@[simp] theorem State.writeReg_segs (s : State) (i : Reg) (v : Word) : (s.writeReg i v).segs = s.segs := by
  unfold State.writeReg; split <;> rfl
@[simp] theorem State.writeReg_mem (s : State) (i : Reg) (v : Word) : (s.writeReg i v).mem = s.mem := by
  unfold State.writeReg; split <;> rfl

/-- Reads go to the register file alone. -/
theorem State.readReg_congr {s t : State} (h : t.regs = s.regs) (i : Reg) : t.readReg i = s.readReg i := by
  unfold State.readReg; simp only [h]

@[simp] theorem State.readReg_writePc (s : State) (v : Word) (i : Reg) : (s.writePc v).readReg i = s.readReg i := rfl
@[simp] theorem State.readReg_advancePc (s : State) (n : Nat) (i : Reg) : (s.advancePc n).readReg i = s.readReg i := rfl
@[simp] theorem State.readReg_withSegs (s : State) (gs : List Segment) (i : Reg) :
    (s.withSegs gs).readReg i = s.readReg i := rfl
@[simp] theorem State.readReg_withMem (s : State) (m : Memory) (i : Reg) : (s.withMem m).readReg i = s.readReg i := rfl

/-- x0 reads zero (R12). -/
@[simp] theorem State.readReg_zero (s : State) : s.readReg 0 = 0 := rfl

/-- A write to x0 changes nothing (R12). -/
@[simp] theorem State.writeReg_zero (s : State) (v : Word) : s.writeReg 0 v = s := rfl

/-- Everything a register write does to the registers (R12). -/
theorem State.readReg_writeReg (s : State) (i j : Reg) (v : Word) :
    (s.writeReg i v).readReg j = if j = i ∧ i ≠ 0 then v else s.readReg j := by
  by_cases hi : i = 0
  · subst hi; simp
  · by_cases hj : j = 0
    · subst hj; simp [Ne.symm hi]
    · have hiv : i.val ≠ 0 := fun h => hi (Fin.ext h)
      have hjv : j.val ≠ 0 := fun h => hj (Fin.ext h)
      simp only [State.readReg, State.writeReg, hi, hj, dite_false, Vector.getElem_set, ne_eq, not_false_eq_true, and_true]
      by_cases h : j = i
      · simp [h]
      · have : i.val - 1 ≠ j.val - 1 := fun e => h (Fin.ext (by omega))
        simp [h, this]

end Sys2Proof.Machine
end

