-- ==== Sys2Proof/Laws/AddressSpace.lean ====
section
/-! SUPPORT. The address space: which segment a window resolves to, what load, store and fetch answer, and that every
operation on it keeps the invariant (R22, R31 to R37, R80). -/

namespace Sys2Proof.Machine

/-! ## Windows and segments -/

theorem Segment.covers_iff (g : Segment) (a : Nat) : g.covers a = true ↔ g.start.toNat ≤ a ∧ a < g.stop := by
  simp [Segment.covers]

theorem Segment.contains_iff (g : Segment) (a n : Nat) :
    g.contains a n = true ↔ g.start.toNat ≤ a ∧ a + n ≤ g.stop := by
  simp [Segment.contains]

theorem Segment.overlaps_iff (g h : Segment) :
    g.overlaps h = true ↔ g.start.toNat < h.stop ∧ h.start.toNat < g.stop := by
  simp [Segment.overlaps]

theorem Segment.fits_iff (g : Segment) : g.fits = true ↔ 1 ≤ g.length ∧ g.stop ≤ 2 ^ 64 := by
  simp [Segment.fits]

/-- Two segments of a sound table that share an address are one (R22). -/
theorem SegTable.eq_of_covers {gs : List Segment} (hw : SegTable.wf gs) {g h : Segment} (hg : g ∈ gs) (hh : h ∈ gs)
    {a : Nat} (ga : g.covers a = true) (ha : h.covers a = true) : g = h := by
  rw [Segment.covers_iff] at ga ha
  have hp := hw.2
  clear hw
  induction gs with
  | nil => exact absurd hg List.not_mem_nil
  | cons k gs ih =>
    have ⟨hk, hp'⟩ := List.pairwise_cons.1 hp
    rcases List.mem_cons.1 hg with hgk | hg' <;> rcases List.mem_cons.1 hh with hhk | hh'
    · rw [hgk, hhk]
    · subst hgk; have := hk _ hh'; omega
    · subst hhk; have := hk _ hg'; omega
    · exact ih hg' hh' hp'

/-- Two different segments of a sound table do not overlap (R22 a). -/
theorem SegTable.eq_of_overlaps {gs : List Segment} (hw : SegTable.wf gs) {g h : Segment} (hg : g ∈ gs) (hh : h ∈ gs)
    (ho : g.overlaps h = true) : g = h := by
  rw [Segment.overlaps_iff] at ho
  have hl : ∀ k ∈ gs, k.start.toNat < k.stop := fun k hk => by
    have := ((Segment.fits_iff k).1 (hw.1 k hk).1).1
    unfold Segment.stop; omega
  have h1 := hl g hg
  have h2 := hl h hh
  rcases Nat.le_total g.start.toNat h.start.toNat with hle | hle
  · exact SegTable.eq_of_covers hw hg hh (a := h.start.toNat) ((Segment.covers_iff ..).2 (by omega))
      ((Segment.covers_iff ..).2 (by omega))
  · exact SegTable.eq_of_covers hw hg hh (a := g.start.toNat) ((Segment.covers_iff ..).2 (by omega))
      ((Segment.covers_iff ..).2 (by omega))

/-- What find_containing answers is a segment of the table that contains the window (R33). -/
theorem findContaining_some {gs : List Segment} {a : Word} {n : Nat} {g : Segment}
    (h : findContaining gs a n = some g) : g ∈ gs ∧ g.contains a.toNat n = true :=
  ⟨List.mem_of_find?_eq_some h, by simpa using List.find?_some h⟩

/-- find_containing answers none exactly when no segment contains the window (R33). -/
theorem findContaining_none {gs : List Segment} {a : Word} {n : Nat} :
    findContaining gs a n = none ↔ ∀ g ∈ gs, g.contains a.toNat n = false := by
  simp [findContaining]

/-- In a sound table the segment that contains a window is the answer (R22, R33). -/
theorem findContaining_eq_some {gs : List Segment} (hw : SegTable.wf gs) {a : Word} {n : Nat} (hn : 1 ≤ n)
    {g : Segment} : findContaining gs a n = some g ↔ g ∈ gs ∧ g.contains a.toNat n = true := by
  refine ⟨findContaining_some, fun ⟨hg, hc⟩ => ?_⟩
  cases h : findContaining gs a n with
  | none => exact absurd hc (by simp [findContaining_none.1 h g hg])
  | some k =>
    have ⟨hk, hkc⟩ := findContaining_some h
    rw [Segment.contains_iff] at hc hkc
    rw [SegTable.eq_of_covers hw hk hg (a := a.toNat) ((Segment.covers_iff ..).2 (by omega))
      ((Segment.covers_iff ..).2 (by omega))]

/-- A window that passes 2^64 is in no segment of a sound table (R33, R47). -/
theorem findContaining_passing_top {gs : List Segment} (hw : SegTable.wf gs) {a : Word} {n : Nat}
    (h : 2 ^ 64 < a.toNat + n) : findContaining gs a n = none := by
  refine findContaining_none.2 fun g hg => ?_
  have := ((Segment.fits_iff g).1 (hw.1 g hg).1).2
  by_contra hc
  rw [Bool.not_eq_false, Segment.contains_iff] at hc
  omega

/-! ## The accesses -/

/-- Everything resolve can answer (R37). -/
theorem resolve_cases (s : State) (a : Word) (n : Nat) (p : Perm → Bool) :
    (findContaining s.segs a n = none ∧ resolve s a n p = .fault .unmapped) ∨
    (∃ g, findContaining s.segs a n = some g ∧ p g.perm = false ∧ resolve s a n p = .fault .permissionDenied) ∨
    (∃ g, findContaining s.segs a n = some g ∧ p g.perm = true ∧ resolve s a n p = .next g) := by
  unfold resolve
  cases findContaining s.segs a n with
  | none => exact .inl ⟨rfl, rfl⟩
  | some g => cases hp : p g.perm <;> simp [hp, raise]

theorem resolve_next {s : State} {a : Word} {n : Nat} {p : Perm → Bool} {g : Segment} :
    resolve s a n p = .next g ↔ findContaining s.segs a n = some g ∧ p g.perm = true := by
  rcases resolve_cases s a n p with ⟨h1, h2⟩ | ⟨k, h1, h2, h3⟩ | ⟨k, h1, h2, h3⟩ <;> simp_all <;> rintro rfl <;> simp_all

/-- resolve looks at the segment table only. -/
theorem resolve_congr {s t : State} (h : t.segs = s.segs) (a : Word) (n : Nat) (p : Perm → Bool) :
    resolve t a n p = resolve s a n p := by
  unfold resolve; rw [h]

/-- Everything fetch can answer (R80). -/
theorem fetch_cases (s : State) :
    (findContaining s.segs s.pc 4 = none ∧ fetch s = .fault .unmapped) ∨
    (∃ g, findContaining s.segs s.pc 4 = some g ∧ g.perm.allowsFetch = false ∧ fetch s = .fault .permissionDenied) ∨
    (∃ g, findContaining s.segs s.pc 4 = some g ∧ g.perm.allowsFetch = true ∧
      fetch s = .next (wordOfBytes (Memory.readBytes s.mem s.pc.toNat 4), 4)) := by
  unfold fetch
  rcases resolve_cases s s.pc 4 Perm.allowsFetch with ⟨h1, h2⟩ | ⟨g, h1, h2, h3⟩ | ⟨g, h1, h2, h3⟩
  · exact .inl ⟨h1, by rw [h2]; rfl⟩
  · exact .inr (.inl ⟨g, h1, h2, by rw [h3]; rfl⟩)
  · exact .inr (.inr ⟨g, h1, h2, by rw [h3]; rfl⟩)

/-- fetch reads pc and the address space only (R81). -/
theorem fetch_congr {s t : State} (hp : t.pc = s.pc) (hs : t.segs = s.segs) (hm : t.mem = s.mem) :
    fetch t = fetch s := by
  unfold fetch; rw [resolve_congr hs, hp, hm]

/-- The size fetch returns is always 4 (R80, R81). -/
theorem fetch_size {s : State} {w : InstrWord} {n : Nat} (h : fetch s = .next (w, n)) : n = 4 := by
  rcases fetch_cases s with ⟨_, h2⟩ | ⟨g, _, _, h2⟩ | ⟨g, _, _, h2⟩ <;> rw [h2] at h <;> simp at h
  exact h.2.symm

/-- The widths of the data port and their bytes (R43). -/
theorem accessBytes_some {w n : Nat} (h : accessBytes w = some n) :
    (w = 8 ∧ n = 1) ∨ (w = 16 ∧ n = 2) ∨ (w = 32 ∧ n = 4) ∨ (w = 64 ∧ n = 8) := by
  unfold accessBytes at h
  split at h <;> simp_all

/-- Everything a successful load says (R34). -/
theorem load_next {s : State} {a : Word} {w : Nat} {v : Word} :
    load s a w = .next v ↔ ∃ n g, accessBytes w = some n ∧ findContaining s.segs a n = some g ∧
      g.perm.r = true ∧ v = BitVec.ofNat 64 (leNat (Memory.readBytes s.mem a.toNat n)) := by
  unfold load
  cases h : accessBytes w with
  | none => simp
  | some n =>
    simp only [andThen_eq_next, resolve_next, Host.Outcome.next.injEq, Option.some.injEq, Perm.allowsLoad]
    constructor
    · rintro ⟨g, ⟨h1, h2⟩, h3⟩; exact ⟨n, g, rfl, h1, h2, h3.symm⟩
    · rintro ⟨k, g, rfl, h1, h2, h3⟩; exact ⟨g, ⟨h1, h2⟩, h3.symm⟩

/-- Everything a successful store says (R35). -/
theorem store_next {s t : State} {a : Word} {w : Nat} {v : Word} :
    store s a w v = .next t ↔ ∃ n g, accessBytes w = some n ∧ findContaining s.segs a n = some g ∧
      g.perm.w = true ∧ t = s.withMem (Memory.writeBytes s.mem a.toNat (leBytes n v.toNat)) := by
  unfold store
  cases h : accessBytes w with
  | none => simp
  | some n =>
    simp only [andThen_eq_next, resolve_next, Host.Outcome.next.injEq, Option.some.injEq, Perm.allowsStore]
    constructor
    · rintro ⟨g, ⟨h1, h2⟩, h3⟩; exact ⟨n, g, rfl, h1, h2, h3.symm⟩
    · rintro ⟨k, g, rfl, h1, h2, h3⟩; exact ⟨g, ⟨h1, h2⟩, h3.symm⟩

/-! ## The invariant -/

/-- The invariant looks at the address space only. -/
theorem State.wf_congr {s t : State} (hs : t.segs = s.segs) (hm : t.mem = s.mem) : t.wf ↔ s.wf := by
  unfold State.wf; rw [hs, hm]

/-- Writing bytes inside a segment of the table keeps the invariant. -/
theorem State.wf_writeBytes {s : State} (hw : s.wf) {g : Segment} (hg : g ∈ s.segs) {a : Nat} {bs : List Byte}
    (hc : g.contains a bs.length = true) : (s.withMem (Memory.writeBytes s.mem a bs)).wf := by
  obtain ⟨h1, h2, h3⟩ := hw
  refine ⟨h1, Memory.wf_writeBytes h2 a bs, fun c hcm => ?_⟩
  rcases Memory.mem_writeBytes hcm with h | ⟨hl, hr⟩
  · exact h3 c h
  · rw [Segment.contains_iff] at hc
    exact List.any_eq_true.2 ⟨g, hg, (Segment.covers_iff ..).2 (by omega)⟩

/-- store keeps the invariant (R35). -/
theorem store_wf {s t : State} (hw : s.wf) {a : Word} {w : Nat} {v : Word} (h : store s a w v = .next t) : t.wf := by
  obtain ⟨n, g, -, hf, -, rfl⟩ := store_next.1 h
  have ⟨hg, hc⟩ := findContaining_some hf
  exact State.wf_writeBytes hw hg (by simpa using hc)

theorem mem_insertSegment {g h : Segment} {gs : List Segment} : h ∈ insertSegment g gs ↔ h = g ∨ h ∈ gs := by
  induction gs with
  | nil => simp [insertSegment]
  | cons k gs ih =>
    unfold insertSegment
    split
    · simp
    · simp only [List.mem_cons, ih]; tauto

/-- Inserting a well-formed segment that overlaps none keeps the table sound (R22, R31). -/
theorem SegTable.wf_insert {gs : List Segment} (hw : SegTable.wf gs) {g : Segment} (hf : g.fits = true)
    (hp : g.perm.nonEmpty = true) (ho : gs.any (·.overlaps g) = false) : SegTable.wf (insertSegment g gs) := by
  refine ⟨fun h hh => (mem_insertSegment.1 hh).elim (fun e => e ▸ ⟨hf, hp⟩) (hw.1 h), ?_⟩
  have hg := (Segment.fits_iff g).1 hf
  induction gs with
  | nil => simp [insertSegment]
  | cons k gs ih =>
    have ⟨hk, hp'⟩ := List.pairwise_cons.1 hw.2
    have hkf := (Segment.fits_iff k).1 (hw.1 k (List.mem_cons_self ..)).1
    simp only [List.any_cons, Bool.or_eq_false_iff] at ho
    have hko : ¬ (k.start.toNat < g.stop ∧ g.start.toNat < k.stop) := fun e => by
      have := (Segment.overlaps_iff k g).2 e; simp [ho.1] at this
    have hgs : g.stop = g.start.toNat + g.length := rfl
    have hks : k.stop = k.start.toNat + k.length := rfl
    unfold insertSegment
    split
    · rename_i hle
      refine List.pairwise_cons.2 ⟨fun h hh => ?_, hw.2⟩
      rcases List.mem_cons.1 hh with rfl | hh
      · omega
      · have := hk h hh; omega
    · rename_i hle
      refine List.pairwise_cons.2 ⟨fun h hh => ?_, ih ⟨fun h hh => hw.1 h (List.mem_cons_of_mem _ hh), hp'⟩ ho.2⟩
      rcases mem_insertSegment.1 hh with rfl | hh
      · omega
      · exact hk h hh

/-- A permission set made from bits is legal (R21). -/
theorem Perm.ofBits_nonEmpty {b : BitVec 8} {p : Perm} (h : Perm.ofBits b = some p) : p.nonEmpty = true := by
  revert b p; decide

/-- The bits of a legal permission set give it back, and those of the empty one are rejected (R21). -/
theorem Perm.ofBits_toBits (p : Perm) : Perm.ofBits p.toBits = if p.nonEmpty then some p else none := by
  obtain ⟨r, w, x⟩ := p
  revert r w x; decide

/-- Everything a successful add_segment says (R31). -/
theorem addSegment_next {s t : State} {a : Word} {n : Nat} {b : BitVec 8} {g : Segment} :
    addSegment s a n b = .next (g, t) ↔ 1 ≤ n ∧ a.toNat + n ≤ 2 ^ 64 ∧ g.start = a ∧ g.length = n ∧
      Perm.ofBits b = some g.perm ∧ s.segs.any (·.overlaps g) = false ∧
      t = (s.withSegs (insertSegment g s.segs)).withMem (Memory.clear s.mem g) := by
  unfold addSegment
  split
  · rename_i h
    cases hp : Perm.ofBits b with
    | none => simp
    | some p =>
      simp only
      split
      · rename_i ho
        constructor
        · intro e; cases e
        · rintro ⟨-, -, rfl, rfl, e, hno, -⟩
          cases e; rw [hno] at ho; cases ho
      · rename_i ho
        constructor
        · intro e; cases e; exact ⟨h.1, h.2, rfl, rfl, rfl, by simpa using ho, rfl⟩
        · rintro ⟨-, -, rfl, rfl, e, -, rfl⟩; cases e; rfl
  · rename_i h
    constructor
    · intro e; cases e
    · rintro ⟨h1, h2, -⟩; exact absurd ⟨h1, h2⟩ h

/-- add_segment keeps the invariant (R22, R31). -/
theorem addSegment_wf {s t : State} (hw : s.wf) {a : Word} {n : Nat} {b : BitVec 8} {g : Segment}
    (h : addSegment s a n b = .next (g, t)) : t.wf := by
  obtain ⟨h1, h2, rfl, rfl, hp, ho, rfl⟩ := addSegment_next.1 h
  refine ⟨SegTable.wf_insert hw.1 ((Segment.fits_iff g).2 ⟨h1, h2⟩) (Perm.ofBits_nonEmpty hp) ho,
    Memory.wf_clear hw.2.1 g, fun c hc => ?_⟩
  obtain ⟨k, hk, hkc⟩ := List.any_eq_true.1 (hw.2.2 c (List.mem_filter.1 hc).1)
  exact List.any_eq_true.2 ⟨k, mem_insertSegment.2 (.inr hk), hkc⟩

/-- remove_segment keeps the invariant (R22, R32). -/
theorem removeSegment_wf {s : State} (hw : s.wf) (g : Segment) : (removeSegment s g).wf := by
  unfold removeSegment
  split
  · rename_i hg
    refine ⟨⟨fun h hh => hw.1.1 h (List.mem_of_mem_erase hh), hw.1.2.sublist List.erase_sublist⟩,
      Memory.wf_clear hw.2.1 g, fun c hc => ?_⟩
    obtain ⟨hcm, hcc⟩ := List.mem_filter.1 hc
    obtain ⟨k, hk, hkc⟩ := List.any_eq_true.1 (hw.2.2 c hcm)
    have : k ≠ g := by rintro rfl; simp [hkc] at hcc
    exact List.any_eq_true.2 ⟨k, (List.mem_erase_of_ne this).2 hk, hkc⟩
  · exact hw

end Sys2Proof.Machine
end

