-- ==== Sys2Proof/Laws/Access.lean ====
section
/-! SUPPORT. The bytes of an access: byte k of an assembled value, byte k of a decomposed one, and what the address space
holds after a store (R34, R35, R40, R80). -/

namespace Sys2Proof

/-- Byte k of an assembled value is the k-th byte (R40). -/
theorem byte_leNat (bs : List Byte) (k : Nat) : BitVec.ofNat 8 (leNat bs / 2 ^ (8 * k)) = bs.getD k 0 := by
  induction bs generalizing k with
  | nil => simp [leNat]
  | cons b bs ih =>
    have hb := b.isLt
    cases k with
    | zero =>
      apply BitVec.eq_of_toNat_eq
      simp [leNat]
      omega
    | succ k =>
      have e : leNat (b :: bs) / 2 ^ (8 * (k + 1)) = leNat bs / 2 ^ (8 * k) := by
        have h1 : (2 : Nat) ^ (8 * (k + 1)) = 256 * 2 ^ (8 * k) := by
          rw [show 8 * (k + 1) = 8 + 8 * k by ring, Nat.pow_add]
        have h2 : (b.toNat + 256 * leNat bs) / 256 = leNat bs := by omega
        rw [leNat, h1, ← Nat.div_div_eq_div_mul, h2]
      rw [e, ih k]
      simp

/-- The same in a vector wide enough to hold the byte. -/
theorem extractByte_leNat {N : Nat} (bs : List Byte) (k : Nat) (h : 8 * k + 8 ≤ N) :
    (BitVec.ofNat N (leNat bs)).extractLsb' (8 * k) 8 = bs.getD k 0 := by
  rw [← byte_leNat]
  apply BitVec.eq_of_getLsbD_eq
  intro i hi
  simp only [BitVec.getLsbD_extractLsb', BitVec.getLsbD_ofNat, hi, decide_true, Bool.true_and,
    Nat.testBit_div_two_pow]
  have : 8 * k + i < N := by omega
  simp only [this, decide_true, Bool.true_and]
  rw [Nat.add_comm]

/-- Byte k of a decomposition is byte k of the value (R35, R40). -/
theorem leBytes_getD (n v k : Nat) (h : k < n) : (leBytes n v).getD k 0 = BitVec.ofNat 8 (v / 2 ^ (8 * k)) := by
  induction n generalizing v k with
  | zero => omega
  | succ n ih =>
    cases k with
    | zero => simp [leBytes]
    | succ k =>
      have e : v / 256 / 2 ^ (8 * k) = v / 2 ^ (8 * (k + 1)) := by
        rw [Nat.div_div_eq_div_mul, show 8 * (k + 1) = 8 + 8 * k by ring, Nat.pow_add]
      simpa [leBytes, e] using ih (v / 256) k (by omega)

/-- Byte k of the decomposition of a 64-bit value is its bits 8k+7 to 8k (R35). -/
theorem leBytes_getD_word (n k : Nat) (v : Word) (h : k < n) :
    (leBytes n v.toNat).getD k 0 = v.extractLsb' (8 * k) 8 := by
  rw [leBytes_getD n _ k h]
  apply BitVec.eq_of_toNat_eq
  simp [BitVec.extractLsb'_toNat, Nat.shiftRight_eq_div_pow]

namespace Machine

theorem Memory.readBytes_getD (m : Memory) (a n k : Nat) (h : k < n) :
    (Memory.readBytes m a n).getD k 0 = Memory.read m (a + k) := by
  induction n generalizing a k with
  | zero => omega
  | succ n ih =>
    cases k with
    | zero => simp [Memory.readBytes]
    | succ k =>
      have := ih (a + 1) k (by omega)
      rw [show a + 1 + k = a + (k + 1) by omega] at this
      simpa [Memory.readBytes] using this

/-- An address of a segment reads as the store has it (R24). -/
theorem byteAt_of_covers {s : State} {g : Segment} (hg : g ∈ s.segs) {a : Nat} (h : g.covers a = true) :
    s.byteAt a = some (Memory.read s.mem a) := by
  unfold State.byteAt
  rw [if_pos (List.any_eq_true.2 ⟨g, hg, h⟩)]

/-- What an address reads after bytes are written at another state of the store: the written byte inside the window, the
old one outside (R35). -/
theorem byteAt_writeBytes {s : State} (hm : Memory.wf s.mem) (a : Nat) (bs : List Byte) (x : Nat) :
    (s.withMem (Memory.writeBytes s.mem a bs)).byteAt x =
      if s.segs.any (·.covers x) then
        some (if a ≤ x ∧ x < a + bs.length then bs.getD (x - a) Memory.unlisted else Memory.read s.mem x)
      else none := by
  unfold State.byteAt
  simp only [State.withMem_segs, State.withMem_mem, Memory.read_writeBytes hm]

/-- A sound segment table has no segment twice. -/
theorem SegTable.nodup {gs : List Segment} (hw : SegTable.wf gs) : gs.Nodup := by
  refine hw.2.imp_of_mem fun {a b} ha hb h e => ?_
  subst e
  have := ((Segment.fits_iff a).1 (hw.1 a ha).1).1
  unfold Segment.stop at h
  omega

/-- A width of the data port is 8 bits for each of its 1 to 8 bytes (R43). -/
theorem accessBytes_bounds {bits n : Nat} (h : accessBytes bits = some n) : bits = 8 * n ∧ 1 ≤ n ∧ n ≤ 8 := by
  rcases accessBytes_some h with ⟨rfl, rfl⟩ | ⟨rfl, rfl⟩ | ⟨rfl, rfl⟩ | ⟨rfl, rfl⟩ <;> decide

/-- Adding a segment leaves the bytes of those that are there, and adds no other (R31). -/
theorem addSegment_keeps {s t : State} {a : Word} {n : Nat} {b : BitVec 8} {g : Segment}
    (h : addSegment s a n b = .next (g, t)) :
    (∀ k ∈ s.segs, k ∈ t.segs ∧
      ∀ x, k.covers x = true → g.covers x = false ∧ Memory.read t.mem x = Memory.read s.mem x) ∧
    ∀ k ∈ t.segs, k = g ∨ k ∈ s.segs := by
  obtain ⟨a1, a2, a3, a4, a5, a6, rfl⟩ := addSegment_next.1 h
  refine ⟨fun k hk => ⟨mem_insertSegment.2 (.inr hk), fun x hx => ?_⟩, fun k hk => mem_insertSegment.1 hk⟩
  have hc : g.covers x = false := by
    by_contra hc
    rw [Bool.not_eq_false] at hc
    have := List.any_eq_false.1 a6 k hk
    rw [Segment.overlaps_iff] at this
    rw [Segment.covers_iff] at hx hc
    omega
  exact ⟨hc, by simp [Memory.read_clear, hc]⟩

/-- Removing segments of the table, one after the other: what is left, and that the state stays sound (R22, R32). -/
theorem foldl_removeSegment {gs : List Segment} {s : State} (hw : s.wf) :
    (gs.foldl removeSegment s).wf ∧ (gs.foldl removeSegment s).pc = s.pc ∧
      ∀ k ∈ (gs.foldl removeSegment s).segs, k ∈ s.segs ∧ k ∉ gs := by
  induction gs generalizing s with
  | nil => exact ⟨hw, rfl, fun k hk => ⟨hk, List.not_mem_nil⟩⟩
  | cons g gs ih =>
    obtain ⟨h1, h2, h3⟩ := ih (removeSegment_wf hw g)
    have hp : (removeSegment s g).pc = s.pc := by unfold removeSegment; split <;> rfl
    have hs : ∀ k ∈ (removeSegment s g).segs, k ∈ s.segs ∧ k ≠ g := by
      unfold removeSegment
      split
      · exact fun k hk => ((SegTable.nodup hw.1).mem_erase_iff.1 hk).symm
      · rename_i hg
        exact fun k hk => ⟨hk, by rintro rfl; exact hg hk⟩
    refine ⟨h1, h2.trans hp, fun k hk => ?_⟩
    obtain ⟨a, b⟩ := h3 k hk
    exact ⟨(hs k a).1, List.not_mem_cons_of_ne_of_not_mem (hs k a).2 b⟩

/-- What placeWord is for: in a sound state the next fetch reads the word it placed (R80). -/
theorem fetch_placeWord {s : State} (hw : s.wf) (w : InstrWord) : fetch (s.placeWord w) = .next (w, 4) := by
  have key : ∀ u : State, SegTable.wf u.segs → Memory.wf u.mem → ∀ g : Segment, g ∈ u.segs →
      g.contains u.pc.toNat 4 = true → g.perm.allowsFetch = true →
      fetch (u.withMem (Memory.writeBytes u.mem u.pc.toNat (leBytes 4 w.toNat))) = .next (w, 4) := by
    intro u h1 h2 g hg hc hx
    have hf := (findContaining_eq_some h1 (a := u.pc) (by omega)).2 ⟨hg, hc⟩
    have hb := Memory.readBytes_writeBytes h2 u.pc.toNat (leBytes 4 w.toNat)
    rw [length_leBytes] at hb
    unfold fetch
    rw [show resolve (u.withMem (Memory.writeBytes u.mem u.pc.toNat (leBytes 4 w.toNat)))
      (u.withMem (Memory.writeBytes u.mem u.pc.toNat (leBytes 4 w.toNat))).pc 4 Perm.allowsFetch = .next g from
      resolve_next.2 ⟨by simpa using hf, hx⟩, andThen_next]
    simp only [State.withMem_mem, State.withMem_pc, hb, wordOfBytes_leBytes]
  have placed : ∀ u : State, u.wf → u.pc.toNat + 4 ≤ 2 ^ 64 → ∀ g : Segment,
      g = { start := u.pc, length := 4, perm := { r := true, w := false, x := true } } →
      ∀ c : State, c = (u.segs.filter (·.overlaps g)).foldl removeSegment u →
      ∀ v : State, v = c.withSegs (insertSegment g c.segs) →
      fetch (v.withMem (Memory.writeBytes v.mem v.pc.toNat (leBytes 4 w.toNat))) = .next (w, 4) := by
    rintro u hu hp g hg c rfl v rfl
    obtain ⟨h1, h2, h3⟩ := foldl_removeSegment (gs := u.segs.filter (·.overlaps g)) hu
    have hgs : g.stop = u.pc.toNat + 4 := by rw [hg]; rfl
    refine key _ (SegTable.wf_insert h1.1 ?_ (by rw [hg]; rfl) ?_) h1.2.1 g (mem_insertSegment.2 (.inl rfl)) ?_
      (by rw [hg]; rfl)
    · rw [Segment.fits_iff, hgs]; exact ⟨by rw [hg]; simp, hp⟩
    · rw [List.any_eq_false]
      intro k hk ho
      obtain ⟨a, b⟩ := h3 k hk
      exact b (List.mem_filter.2 ⟨a, ho⟩)
    · rw [Segment.contains_iff, hgs, State.withSegs_pc, h2]
      exact ⟨by rw [hg], Nat.le_refl _⟩
  unfold State.placeWord
  simp only
  generalize h0 : (if s.pc.toNat + 4 ≤ 2 ^ 64 then s else s.writePc 0) = s0
  have hp : s0.pc.toNat + 4 ≤ 2 ^ 64 := by
    subst h0
    split
    · assumption
    · simp
  have hw0 : s0.wf := by
    subst h0
    split
    · exact hw
    · exact (State.wf_congr rfl rfl).2 hw
  cases hf : findContaining s0.segs s0.pc 4 with
  | some g =>
    have ⟨hg, hc⟩ := findContaining_some hf
    by_cases hx : g.perm.allowsFetch = true
    · simp only [hx, if_true]
      exact key s0 hw0.1 hw0.2.1 g hg hc hx
    · simp only [hx]
      exact placed s0 hw0 hp _ rfl _ rfl _ rfl
  | none => exact placed s0 hw0 hp _ rfl _ rfl _ rfl

end Machine

end Sys2Proof
end

