-- ==== Sys2Proof/Laws/Decode.lean ====
section
/-! SUPPORT. The decode tables: what one entry of either says about a word's fields, and which entry findHandler answers
(R64 to R66, R82). -/

namespace Sys2Proof

/-- The exact mask keeps funct7, funct3 and opcode (R65). -/
theorem and_exactMask (w : InstrWord) :
    w &&& 0xFE00707F = encodeFields { funct7 := funct7 w, rs2 := 0, rs1 := 0, rd := 0 } (funct3 w) (opcode w) := by
  conv_lhs => rw [← encodeFields_fieldsOf w, encodeFields_and_exactMask]
  rfl

/-- The general mask keeps funct3 and opcode (R66). -/
theorem and_generalMask (w : InstrWord) :
    w &&& 0x0000707F = encodeFields { funct7 := 0, rs2 := 0, rs1 := 0, rd := 0 } (funct3 w) (opcode w) := by
  conv_lhs => rw [← encodeFields_fieldsOf w, encodeFields_and_generalMask]

/-- Two encodings are equal only if all their fields are (R61). -/
theorem encodeFields_inj {f g : RFields} {a b : BitVec 3} {c d : BitVec 7}
    (h : encodeFields f a c = encodeFields g b d) : f = g ∧ a = b ∧ c = d :=
  ⟨by rw [← fieldsOf_encodeFields f a c, h, fieldsOf_encodeFields],
   by rw [← funct3_encodeFields f a c, h, funct3_encodeFields],
   by rw [← opcode_encodeFields f a c, h, opcode_encodeFields]⟩

/-- A word matches a pattern under the exact mask when its funct7, funct3 and opcode are the pattern's. -/
theorem and_exactMask_eq_iff (w p : InstrWord) :
    w &&& 0xFE00707F = p ↔
      p &&& 0xFE00707F = p ∧ funct7 w = funct7 p ∧ funct3 w = funct3 p ∧ opcode w = opcode p := by
  constructor
  · rintro rfl
    refine ⟨by rw [BitVec.and_assoc, BitVec.and_self], ?_⟩
    rw [and_exactMask]
    simp only [funct7_encodeFields, funct3_encodeFields, opcode_encodeFields, and_self]
  · rintro ⟨h0, h1, h2, h3⟩
    rw [and_exactMask, h1, h2, h3, ← and_exactMask, h0]

/-- A word matches a pattern under the general mask when its funct3 and opcode are the pattern's. -/
theorem and_generalMask_eq_iff (w p : InstrWord) :
    w &&& 0x0000707F = p ↔ p &&& 0x0000707F = p ∧ funct3 w = funct3 p ∧ opcode w = opcode p := by
  constructor
  · rintro rfl
    refine ⟨by rw [BitVec.and_assoc, BitVec.and_self], ?_⟩
    rw [and_generalMask]
    simp only [funct3_encodeFields, opcode_encodeFields, and_self]
  · rintro ⟨h0, h2, h3⟩
    rw [and_generalMask, h2, h3, ← and_generalMask, h0]

/-- What findHandler answers is the handler of an entry that hits the word (R65). -/
theorem findHandler_some {m : DecodeMode} {w : InstrWord} {h : Handler} (e : findHandler m w = some h) :
    ∃ r ∈ decodeTable m, r.hits w = true ∧ r.handler = h := by
  unfold findHandler at e
  obtain ⟨r, hr, rfl⟩ := Option.map_eq_some_iff.1 e
  exact ⟨r, List.mem_of_find?_eq_some hr, by simpa using List.find?_some hr, rfl⟩

/-- findHandler depends only on which entries hit (R65, R82). -/
theorem findHandler_congr {m : DecodeMode} {v w : InstrWord} (h : ∀ r ∈ decodeTable m, r.hits v = r.hits w) :
    findHandler m v = findHandler m w := by
  unfold findHandler
  rw [List.find?_congr h]

theorem Handler.requiredFunct7_on (h : Handler) (v w : InstrWord) :
    (h.on v).requiredFunct7 = (h.on w).requiredFunct7 := by cases h <;> rfl

theorem Handler.funct3_on (h : Handler) (v w : InstrWord) : (h.on v).funct3 = (h.on w).funct3 := by cases h <;> rfl

/-- Every entry of the exact table has the exact mask and the fields of its handler's operation (R64, R65). -/
theorem exactTable_row :
    ∀ r ∈ exactTable, r.mask = 0xFE00707F ∧ funct7 r.pattern = (r.handler.on 0).requiredFunct7 ∧
      funct3 r.pattern = (r.handler.on 0).funct3 ∧ opcode r.pattern = opcodeOP := by decide

/-- Every entry of the general table has the general mask and the funct3 of its handler's operation (R66). -/
theorem generalTable_row :
    ∀ r ∈ generalTable, r.mask = 0x0000707F ∧ funct3 r.pattern = (r.handler.on 0).funct3 ∧
      opcode r.pattern = opcodeOP := by decide

/-- No two entries of the exact table have one pattern (R65). -/
theorem exactTable_pattern_inj : ∀ r ∈ exactTable, ∀ q ∈ exactTable, q.pattern = r.pattern → q = r := by decide

end Sys2Proof
end

