-- ==== Sys2Proof/Laws/Loader.lean ====
section
/-! SUPPORT. The loader, read back from a success: what each of its steps did, and that each keeps the address space sound
(R177 to R182). -/

namespace Sys2Proof.Machine

/-- A read of the file succeeds exactly when the file holds the bytes, and gives them (R179). -/
theorem readFile_some {file bs : List Byte} {o n : Nat} :
    readFile file o n = some bs ↔ o + n ≤ file.length ∧ bs = (file.drop o).take n := by
  unfold readFile
  split
  · rename_i h
    simp [h, eq_comm]
  · rename_i h
    simp [h]

/-- What is read has the length asked for. -/
theorem length_readFile {file bs : List Byte} {o n : Nat} (h : readFile file o n = some bs) : bs.length = n := by
  obtain ⟨h1, rfl⟩ := readFile_some.1 h
  simp
  omega

/-- Byte k of what is read is the file's byte at offset + k. -/
theorem getD_readFile {file bs : List Byte} {o n k : Nat} (h : readFile file o n = some bs) (hk : k < n) :
    bs.getD k 0 = file.getD (o + k) 0 := by
  obtain ⟨-, rfl⟩ := readFile_some.1 h
  simp [List.getD_eq_getElem?_getD, hk, List.getElem?_drop]

/-- Byte k of a field is the record's byte at the field's place plus k (R177). -/
theorem byte_fieldOf (r : List Byte) (o : Nat) {n k : Nat} (h : k < n) :
    BitVec.ofNat 8 (fieldOf r o n / 2 ^ (8 * k)) = r.getD (o + k) 0 := by
  unfold fieldOf
  rw [byte_leNat]
  simp [List.getD_eq_getElem?_getD, h, List.getElem?_drop]

/-- A field of n bytes is below 2^(8n). -/
theorem fieldOf_lt (r : List Byte) (o n : Nat) : fieldOf r o n < 2 ^ (8 * n) := by
  have h1 := leNat_lt ((r.drop o).take n)
  have h2 : 256 ^ ((r.drop o).take n).length ≤ 256 ^ n := Nat.pow_le_pow_right (by norm_num) (by simp)
  have h3 : (256 : Nat) ^ n = 2 ^ (8 * n) := by rw [Nat.pow_mul]
  unfold fieldOf
  omega

/-- Everything loader step 2 can do for one program header when it succeeds (R179). -/
theorem loadSegment_next {file : List Byte} {p : ProgramHeader} {s t : State} (h : loadSegment file p s = .next t) :
    (p.headerType ≠ 1 ∧ t = s) ∨
    (p.headerType = 1 ∧ ∃ g u bytes,
      addSegment s p.virtualAddress p.memorySize (translateFlags p.flags).toBits = .next (g, u) ∧
      p.fileSize ≤ p.memorySize ∧ readFile file p.fileOffset p.fileSize = some bytes ∧
      t = u.withMem (Memory.writeBytes u.mem p.virtualAddress.toNat bytes)) := by
  unfold loadSegment at h
  split at h
  · rename_i hp
    cases h
    exact .inl ⟨hp, rfl⟩
  · rename_i hp
    split at h
    · cases h
    · cases h
    · rename_i g u hu
      split at h
      · cases h
      · split at h
        · cases h
        · rename_i bytes hb
          cases h
          exact .inr ⟨not_not.1 hp, g, u, bytes, hu, by omega, hb, rfl⟩

/-- Loader step 2 for a header at the front: it was read, acted on, and the rest followed (R179). -/
theorem loadSegments_succ_next {file : List Byte} {h : ElfHeader} {i n : Nat} {s t : State}
    (e : loadSegments file h i (n + 1) s = .next t) :
    ∃ p u, readProgramHeader file (h.headerOffset i) = some p ∧ loadSegment file p s = .next u ∧
      loadSegments file h (i + 1) n u = .next t := by
  simp only [loadSegments] at e
  split at e
  · cases e
  · rename_i p hp
    obtain ⟨u, h1, h2⟩ := andThen_eq_next.1 e
    exact ⟨p, u, hp, h1, h2⟩

/-- Loader step 2 keeps the address space sound (R22, R174). -/
theorem loadSegment_wf {file : List Byte} {p : ProgramHeader} {s t : State} (hw : s.wf)
    (h : loadSegment file p s = .next t) : t.wf := by
  rcases loadSegment_next h with ⟨_, rfl⟩ | ⟨_, g, u, bytes, hu, h1, hb, rfl⟩
  · exact hw
  · have hwu := addSegment_wf hw hu
    obtain ⟨a1, a2, a3, a4, a5, a6, a7⟩ := addSegment_next.1 hu
    refine State.wf_writeBytes hwu (g := g) (by rw [a7]; simp [mem_insertSegment]) ?_
    rw [length_readFile hb, Segment.contains_iff, ← a3, Segment.stop, a4]
    omega

theorem loadSegments_wf {file : List Byte} {h : ElfHeader} {i n : Nat} {s t : State} (hw : s.wf)
    (e : loadSegments file h i n s = .next t) : t.wf := by
  induction n generalizing s i with
  | zero => cases e; exact hw
  | succ n ih =>
    obtain ⟨p, u, -, h1, h2⟩ := loadSegments_succ_next e
    exact ih (loadSegment_wf hw h1) h2

/-- Loader step 2 touches no register and not pc (R179). -/
theorem loadSegments_frame {file : List Byte} {h : ElfHeader} {i n : Nat} {s t : State}
    (e : loadSegments file h i n s = .next t) : t.regs = s.regs ∧ t.pc = s.pc := by
  induction n generalizing s i with
  | zero => cases e; exact ⟨rfl, rfl⟩
  | succ n ih =>
    obtain ⟨p, u, -, h1, h2⟩ := loadSegments_succ_next e
    obtain ⟨a, b⟩ := ih h2
    rcases loadSegment_next h1 with ⟨_, rfl⟩ | ⟨_, g, v, _, hu, _, _, rfl⟩
    · exact ⟨a, b⟩
    · obtain ⟨-, -, -, -, -, -, rfl⟩ := addSegment_next.1 hu
      exact ⟨a, b⟩

/-- Everything loader step 4 did when it succeeds (R172, R181). -/
theorem placeStack_next {b : Word} {n : Nat} {s t : State} (h : placeStack b n s = .next t) :
    ∃ g u, addSegment s b n ({ r := true, w := true, x := false } : Perm).toBits = .next (g, u) ∧
      t = u.writeReg Config.spIndex (BitVec.ofNat 64 (b.toNat + n)) := by
  unfold placeStack at h
  split at h
  · cases h
  · cases h
  · rename_i g u hu
    cases h
    exact ⟨g, u, hu, rfl⟩

/-- A launch is a readable header that passes the checks, loader step 2 on a new Process, and loader step 4 (R170, R178). -/
theorem loadProcess_next {file : List Byte} {l : Option Nat} {b : Word} {s : State}
    (e : loadProcess file l b = .next s) :
    ∃ h u, readFileHeader file = some h ∧ validateHeader h = none ∧
      loadSegments file h 0 h.headerCount (newProcess h.entry) = .next u ∧
      placeStack b (l.getD Config.stackDefault) u = .next s := by
  unfold loadProcess at e
  split at e
  · cases e
  · rename_i h hh
    split at e
    · cases e
    · rename_i hv
      obtain ⟨u, h1, h2⟩ := andThen_eq_next.1 e
      exact ⟨h, u, hh, hv, h1, h2⟩

/-- An empty address space is sound. -/
theorem newProcess_wf (entry : Word) : (newProcess entry).wf := by
  unfold newProcess
  exact ⟨⟨by simp, by simp⟩, ⟨by simp, by simp⟩, by simp⟩

/-! ## Host moves -/

/-- Which host moves go on: all but a refused use (R7, R186). -/
theorem stateAfter_ok {φ : Type} {s t : State} {o : Host.Outcome State φ Refusal} :
    stateAfter s o = .ok t ↔ o = .next t ∨ ((∃ r, o = .fault r) ∧ t = s) := by
  cases o <;> simp [stateAfter, eq_comm]

end Sys2Proof.Machine
end

