-- ==== Sys2Proof/Laws/PerInstr.lean ====
section
/-! SUPPORT. Facts about every instruction as syntax, one lemma per constructor. Family EncodingPattern: the word of an
instruction keeps its fields, and under the exact mask a well-formed one leaves a pattern of the exact table (R64, R65). -/

namespace Sys2Proof.Laws

/-- The encoded word has the instruction's fields, funct3 and opcode; if the instruction is well formed, some entry of the
exact table hits it. -/
def EncodingPattern.Statement (i : Instr) : Prop :=
  fieldsOf (encode i) = i.fields ∧ Sys2Proof.funct3 (encode i) = i.funct3 ∧ opcode (encode i) = opcodeOP ∧
    (i.wf = true → (exactTable.any fun r => r.hits (encode i)) = true)

/-- The fields of an encoding are the instruction's own, whatever they are. -/
theorem encode_fields (i : Instr) :
    fieldsOf (encode i) = i.fields ∧ Sys2Proof.funct3 (encode i) = i.funct3 ∧ opcode (encode i) = opcodeOP :=
  ⟨fieldsOf_encodeFields .., funct3_encodeFields .., opcode_encodeFields ..⟩

/-- What a table entry under the exact mask sees of an encoding. -/
theorem hits_encode (r : DecodeRow) (hr : r.mask = 0xFE00707F) (i : Instr) :
    r.hits (encode i) =
      (encodeFields { i.fields with rs2 := 0, rs1 := 0, rd := 0 } i.funct3 opcodeOP == r.pattern) := by
  rw [DecodeRow.hits, hr, encode, encodeFields_and_exactMask]

/-- The clause on the exact table from a decidable fact about the required funct7. -/
theorem encodingPattern_of {i : Instr}
    (h : (exactTable.any fun r => encodeFields { funct7 := i.requiredFunct7, rs2 := 0, rs1 := 0, rd := 0 } i.funct3 opcodeOP
      == r.pattern) = true) : EncodingPattern.Statement i := by
  obtain ⟨h1, h2, h3⟩ := encode_fields i
  refine ⟨h1, h2, h3, fun hw => ?_⟩
  have hf : i.fields.funct7 = i.requiredFunct7 := by simpa [Instr.wf] using hw
  obtain ⟨r, hr, hp⟩ := List.any_eq_true.1 h
  have hm : r.mask = 0xFE00707F := by
    have : ∀ q ∈ exactTable, q.mask = 0xFE00707F := by decide
    exact this r hr
  exact List.any_eq_true.2 ⟨r, hr, by simp only [hits_encode r hm i, hf]; exact hp⟩

theorem EncodingPattern.add (f : RFields) : EncodingPattern.Statement (.add f) :=
  encodingPattern_of (i := .add f) (by simp only [Instr.requiredFunct7, Instr.funct3]; decide)
theorem EncodingPattern.sub (f : RFields) : EncodingPattern.Statement (.sub f) :=
  encodingPattern_of (i := .sub f) (by simp only [Instr.requiredFunct7, Instr.funct3]; decide)
theorem EncodingPattern.sll (f : RFields) : EncodingPattern.Statement (.sll f) :=
  encodingPattern_of (i := .sll f) (by simp only [Instr.requiredFunct7, Instr.funct3]; decide)
theorem EncodingPattern.slt (f : RFields) : EncodingPattern.Statement (.slt f) :=
  encodingPattern_of (i := .slt f) (by simp only [Instr.requiredFunct7, Instr.funct3]; decide)
theorem EncodingPattern.sltu (f : RFields) : EncodingPattern.Statement (.sltu f) :=
  encodingPattern_of (i := .sltu f) (by simp only [Instr.requiredFunct7, Instr.funct3]; decide)
theorem EncodingPattern.xor (f : RFields) : EncodingPattern.Statement (.xor f) :=
  encodingPattern_of (i := .xor f) (by simp only [Instr.requiredFunct7, Instr.funct3]; decide)
theorem EncodingPattern.srl (f : RFields) : EncodingPattern.Statement (.srl f) :=
  encodingPattern_of (i := .srl f) (by simp only [Instr.requiredFunct7, Instr.funct3]; decide)
theorem EncodingPattern.sra (f : RFields) : EncodingPattern.Statement (.sra f) :=
  encodingPattern_of (i := .sra f) (by simp only [Instr.requiredFunct7, Instr.funct3]; decide)
theorem EncodingPattern.or (f : RFields) : EncodingPattern.Statement (.or f) :=
  encodingPattern_of (i := .or f) (by simp only [Instr.requiredFunct7, Instr.funct3]; decide)
theorem EncodingPattern.and (f : RFields) : EncodingPattern.Statement (.and f) :=
  encodingPattern_of (i := .and f) (by simp only [Instr.requiredFunct7, Instr.funct3]; decide)

end Sys2Proof.Laws
end

