-- ==== Sys2Proof/Laws/Step.lean ====
section
/-! SUPPORT. What execute and the step can do, said once: the handler template, exec over all instructions, decode's
handlers, and the step read back from its outcome (R82, R84, R85, R90). -/

namespace Sys2Proof

@[simp] theorem Handler.on_fields (h : Handler) (w : InstrWord) : (h.on w).fields = fieldsOf w := by cases h <;> rfl

/-- A decoded instruction is some handler on the word (R82). -/
theorem decode_ok {m : DecodeMode} {w : InstrWord} {i : Instr} :
    decode m w = .ok i ↔ ∃ h, findHandler m w = some h ∧ i = h.on w := by
  unfold decode
  cases findHandler m w with
  | none => simp
  | some h => simp [eq_comm]

/-- decode rejects a word exactly when no entry of the table hits it (R65). -/
theorem decode_error {m : DecodeMode} {w : InstrWord} {e : DecodeReject} :
    decode m w = .error e ↔ ∀ r ∈ decodeTable m, r.hits w = false := by
  unfold decode findHandler
  cases e
  cases h : (decodeTable m).find? (·.hits w) with
  | none => simpa using h
  | some r =>
    have h1 := List.mem_of_find?_eq_some h
    have h2 := List.find?_some h
    simp only [Option.map_some, reduceCtorEq, false_iff]
    intro hall
    rw [hall r h1] at h2
    cases h2

namespace Machine

/-- Everything the handler template does (R84, R85). -/
theorem rType_cases (q : BitVec 7) (c : Word → Word → Word) (f : RFields) (s : State) :
    (f.funct7 ≠ q ∧ rType q c f s = .fault .unsupportedVariant) ∨
    (f.funct7 = q ∧ rType q c f s = .next (s.writeReg f.rd (c (s.readReg f.rs1) (s.readReg f.rs2)))) := by
  unfold rType
  by_cases h : f.funct7 = q
  · exact .inr ⟨h, by simp [h]⟩
  · exact .inl ⟨h, by simp [h, raise]⟩

/-- What execute computes, as a function of the two sources (R83): exec i writes it to the destination. -/
def resultOf : Instr → Word → Word → Word
  | .add _, a, b => trunc64 ((a.toNat : Int) + (b.toNat : Int))
  | .sub _, a, b => trunc64 ((a.toNat : Int) - (b.toNat : Int))
  | .sll _, a, b => trunc64 ((a.toNat : Int) * (2 ^ shiftAmount b : Nat))
  | .slt _, a, b => flagWord (lessSigned a b)
  | .sltu _, a, b => flagWord (lessUnsigned a b)
  | .xor _, a, b => a ^^^ b
  | .srl _, a, b => trunc64 ((a.toNat : Int).fdiv (2 ^ shiftAmount b : Nat))
  | .sra _, a, b => trunc64 (a.toInt.fdiv (2 ^ shiftAmount b : Nat))
  | .or _, a, b => a ||| b
  | .and _, a, b => a &&& b

/-- Every instruction is the template with its required funct7 and its computation (R83, R84). -/
theorem exec_eq_rType (i : Instr) (s : State) : exec i s = rType i.requiredFunct7 (resultOf i) i.fields s := by
  cases i <;> rfl

/-- Everything execute can do (R84 to R86): the fault UnsupportedVariant exactly when funct7 is not the required value,
and otherwise one register write. -/
theorem exec_cases (i : Instr) (s : State) :
    (i.wf = false ∧ exec i s = .fault .unsupportedVariant) ∨
    (i.wf = true ∧ exec i s =
      .next (s.writeReg i.fields.rd (resultOf i (s.readReg i.fields.rs1) (s.readReg i.fields.rs2)))) := by
  rw [exec_eq_rType]
  rcases rType_cases i.requiredFunct7 (resultOf i) i.fields s with ⟨h, e⟩ | ⟨h, e⟩
  · exact .inl ⟨by simp [Instr.wf, h], e⟩
  · exact .inr ⟨by simp [Instr.wf, h], e⟩

/-- A successful execute, read back (R84, R86). -/
theorem exec_next {i : Instr} {s t : State} :
    exec i s = .next t ↔ i.wf = true ∧
      t = s.writeReg i.fields.rd (resultOf i (s.readReg i.fields.rs1) (s.readReg i.fields.rs2)) := by
  rcases exec_cases i s with ⟨h, e⟩ | ⟨h, e⟩ <;> rw [e] <;> simp [h, eq_comm]

/-- A register write is exactly a change of one register (R12, R86). -/
theorem wroteOnly_writeReg (s : State) (d : Reg) (v : Word) : WroteOnly s (s.writeReg d v) d v :=
  ⟨by simp, ⟨by simp, by simp, fun a => by simp [State.byteAt]⟩, fun r => State.readReg_writeReg s d r v⟩

/-- decode as an operation succeeds exactly when decode gives an instruction (R82). -/
theorem decodeOrFault_next {m : DecodeMode} {w : InstrWord} {i : Instr} :
    decodeOrFault m w = .next i ↔ decode m w = .ok i := by
  unfold decodeOrFault
  rcases decode m w with ⟨⟨⟩⟩ | j <;> simp [raise]

/-- A successful step, read back (R90): the fetched word, the instruction it decodes to, and the one register write
before the advance of pc. -/
theorem stepIn_next {m : DecodeMode} {s t : State} :
    stepIn m s = .next t ↔ ∃ w i, fetch s = .next (w, 4) ∧ decode m w = .ok i ∧ i.wf = true ∧
      t = (s.writeReg i.fields.rd (resultOf i (s.readReg i.fields.rs1) (s.readReg i.fields.rs2))).advancePc 4 := by
  unfold stepIn
  simp only [andThen_eq_next, Prod.exists, decodeOrFault_next, exec_next, Host.Outcome.next.injEq]
  constructor
  · rintro ⟨w, n, hf, i, hd, u, ⟨hw, rfl⟩, rfl⟩
    obtain rfl := fetch_size hf
    exact ⟨w, i, hf, hd, hw, rfl⟩
  · rintro ⟨w, i, hf, hd, hw, rfl⟩
    exact ⟨w, 4, hf, i, hd, _, ⟨hw, rfl⟩, rfl⟩

/-- What a successful step leaves of pc and the address space (R90). -/
theorem stepIn_next_frame {m : DecodeMode} {s t : State} (h : stepIn m s = .next t) :
    t.pc = BitVec.ofNat 64 (s.pc.toNat + 4) ∧ t.segs = s.segs ∧ t.mem = s.mem := by
  obtain ⟨w, i, -, -, -, rfl⟩ := stepIn_next.1 h
  simp

/-- Everything a step can answer, in the order it is found (R147). -/
theorem stepIn_cases (m : DecodeMode) (s : State) :
    (findContaining s.segs s.pc 4 = none ∧ stepIn m s = .fault .unmapped) ∨
    (∃ g, findContaining s.segs s.pc 4 = some g ∧ g.perm.allowsFetch = false ∧
      stepIn m s = .fault .permissionDenied) ∨
    (∃ w, fetch s = .next (w, 4) ∧ (∃ e, decode m w = .error e) ∧ stepIn m s = .fault .unsupported) ∨
    (∃ w i, fetch s = .next (w, 4) ∧ decode m w = .ok i ∧ i.wf = false ∧
      stepIn m s = .fault .unsupportedVariant) ∨
    (∃ w i, fetch s = .next (w, 4) ∧ decode m w = .ok i ∧ i.wf = true ∧ stepIn m s =
      .next ((s.writeReg i.fields.rd (resultOf i (s.readReg i.fields.rs1) (s.readReg i.fields.rs2))).advancePc 4)) := by
  unfold stepIn
  rcases fetch_cases s with ⟨h1, h2⟩ | ⟨g, h1, h2, h3⟩ | ⟨g, -, -, h3⟩
  · exact .inl ⟨h1, by rw [h2]; rfl⟩
  · exact .inr (.inl ⟨g, h1, h2, by rw [h3]; rfl⟩)
  · refine .inr (.inr ?_)
    generalize wordOfBytes (Memory.readBytes s.mem s.pc.toNat 4) = w at h3
    rw [h3]
    simp only [andThen_next]
    cases hd : decode m w with
    | error e => exact .inl ⟨w, rfl, ⟨e, hd⟩, by cases e; simp [decodeOrFault, hd, raise]⟩
    | ok i =>
      rw [decodeOrFault_next.2 hd, andThen_next]
      rcases exec_cases i s with ⟨hw, e⟩ | ⟨hw, e⟩
      · exact .inr (.inl ⟨w, i, rfl, hd, hw, by rw [e]; rfl⟩)
      · exact .inr (.inr ⟨w, i, rfl, hd, hw, by rw [e]; rfl⟩)

end Machine

end Sys2Proof
end

