-- ==== Sys2Proof/Tests/Slice0.lean ====
section
/-! SUPPORT. Tests with expected results from spec/95_test_vectors.md, and for every statement a witness of its hypotheses. -/

namespace Sys2Proof.Tests

open Sys2Proof.Machine

/-! ## Helpers -/

/-- The value of a success, as data. -/
def nextOf {α φ ρ : Type} : Host.Outcome α φ ρ → Option α
  | .next a => some a
  | .fault _ => none
  | .refused _ => none

/-- The reason of a fault, as data. -/
def faultOf {α φ ρ : Type} : Host.Outcome α φ ρ → Option φ
  | .next _ => none
  | .fault r => some r
  | .refused _ => none

/-- The reason of a refusal, as data. -/
def refusalOf {α φ ρ : Type} : Host.Outcome α φ ρ → Option ρ
  | .next _ => none
  | .fault _ => none
  | .refused r => some r

theorem eq_next {α φ ρ : Type} {o : Host.Outcome α φ ρ} {a : α} (h : nextOf o = some a) : o = .next a := by
  cases o <;> simp_all [nextOf]

theorem exists_next {α φ ρ : Type} {o : Host.Outcome α φ ρ} (h : (nextOf o).isSome = true) : ∃ a, o = .next a := by
  cases o <;> simp_all [nextOf]

theorem eq_fault {α φ ρ : Type} {o : Host.Outcome α φ ρ} {r : φ} (h : faultOf o = some r) : o = .fault r := by
  cases o <;> simp_all [faultOf]

/-- A state with zero registers and the given bytes at one place. -/
def stateAt (pc : Word) (segs : List Segment) (a : Nat) (bs : List Byte) : State :=
  { regs := Vector.replicate 31 0, pc := pc, segs := segs, mem := Memory.writeBytes [] a bs }

/-- x11 and x12 set. -/
def withOps (s : State) (a b : Word) : State := (s.writeReg 11 a).writeReg 12 b

def seg (start : Word) (length : Nat) (r w x : Bool) : Segment :=
  { start := start, length := length, perm := { r := r, w := w, x := x } }

/-- EN1 then EN2, byte by byte from the EN table of 95_test_vectors.md. -/
def codeBytes : List Byte := [0x33, 0x85, 0xC5, 0x00, 0x33, 0x85, 0xC5, 0x40]

/-- The start state of the X-vectors: one segment from 0x1000 to 0x1008 with EN1 and EN2, x11 = 5, x12 = 7. -/
def xState (r w x : Bool) (pc : Word) : State :=
  withOps (stateAt pc [seg 0x1000 8 r w x] 0x1000 codeBytes) 5 7

/-- One word at pc = 0x1000 in a readable and executable segment, x11 and x12 given. -/
def oneWord (w : InstrWord) (a b : Word) : State :=
  withOps (stateAt 0x1000 [seg 0x1000 8 true false true] 0x1000 (leBytes 4 w.toNat)) a b

/-- One register after a step. -/
def regAfter (s : State) (i : Reg) : Option Word := (nextOf (step s)).map (·.readReg i)

/-- The address space of the M-vectors, with C's bytes. -/
def mState : State :=
  stateAt 0 [seg 0x2000 16 true true false, seg 0x2010 16 true true false, seg 0x3000 16 true false false,
    seg 0x4000 16 false true false] 0x3000 [0, 1, 2, 3, 4, 5, 6, 7, 8, 9, 10, 11, 12, 13, 14, 15]

/-- A readable, writable and executable segment, as in program P3, with pc at its start. -/
def rwxState : State := stateAt 0x30000 [seg 0x30000 256 true true true] 0x30000 codeBytes

/-- The top of the address space: EN1 and EN2 in the segment that ends at 2^64 (95_test_vectors.md 2.7). -/
def topState (pc : Word) : State :=
  withOps (stateAt pc [seg 0xFFFFFFFFFFFFFFF8 8 true false true] 0xFFFFFFFFFFFFFFF8 codeBytes) 5 7

/-! ## Well-formedness: the one check refuses a wrong funct7 in every constructor (R85) -/

def ill00 : RFields := { funct7 := 0x20, rs2 := 12, rs1 := 11, rd := 10 }
def ill20 : RFields := { funct7 := 0x00, rs2 := 12, rs1 := 11, rd := 10 }

theorem test_wf_refuses_required_zero :
    [Instr.add ill00, .sll ill00, .slt ill00, .sltu ill00, .xor ill00, .srl ill00, .or ill00, .and ill00].all
      (fun i => !i.wf) = true := by decide
theorem test_wf_refuses_required_twenty : [Instr.sub ill20, .sra ill20].all (fun i => !i.wf) = true := by decide
theorem test_wf_refuses_one_bit : (Instr.add { funct7 := 0x01, rs2 := 12, rs1 := 11, rd := 10 }).wf = false := by decide
theorem test_wf_accepts : (Instr.add ill20).wf = true ∧ (Instr.sra ill00).wf = true := by decide

/-! ## Decoding: words written out from spec/30_encoding.md R61 and R64, bits 31 to 0 (EN1 to EN10) -/

def f00 : RFields := { funct7 := 0x00, rs2 := 12, rs1 := 11, rd := 10 }
def f20 : RFields := { funct7 := 0x20, rs2 := 12, rs1 := 11, rd := 10 }

-- fields:                       funct7 | rs2 | rs1 | funct3 | rd | opcode, for x10, x11, x12
theorem test_decode_add : decode .exact 0b00000000110001011000010100110011 = .ok (.add f00) := by decide
theorem test_decode_sub : decode .exact 0b01000000110001011000010100110011 = .ok (.sub f20) := by decide
theorem test_decode_sll : decode .exact 0b00000000110001011001010100110011 = .ok (.sll f00) := by decide
theorem test_decode_slt : decode .exact 0b00000000110001011010010100110011 = .ok (.slt f00) := by decide
theorem test_decode_sltu : decode .exact 0b00000000110001011011010100110011 = .ok (.sltu f00) := by decide
theorem test_decode_xor : decode .exact 0b00000000110001011100010100110011 = .ok (.xor f00) := by decide
theorem test_decode_srl : decode .exact 0b00000000110001011101010100110011 = .ok (.srl f00) := by decide
theorem test_decode_sra : decode .exact 0b01000000110001011101010100110011 = .ok (.sra f20) := by decide
theorem test_decode_or : decode .exact 0b00000000110001011110010100110011 = .ok (.or f00) := by decide
theorem test_decode_and : decode .exact 0b00000000110001011111010100110011 = .ok (.and f00) := by decide

/-- EN8's bytes as they lie in memory. -/
theorem test_bytes_sra : encodeBytes (.sra f20) = [0x33, 0xD5, 0xC5, 0x40] := by decide
/-- The register fields of `and x1, x2, x3` = 0x003170B3 and `sub x5, x0, x6` = 0x406002B3 (95_test_vectors.md 2.1). -/
theorem test_encode_register_fields :
    encode (.and { funct7 := 0x00, rs2 := 3, rs1 := 2, rd := 1 }) = 0x003170B3 ∧
      encode (.sub { funct7 := 0x20, rs2 := 6, rs1 := 0, rd := 5 }) = 0x406002B3 := by decide
/-- IL1 to IL12: illegal in exact mode. -/
theorem test_decode_illegal :
    ([0x00000000, 0xFFFFFFFF, 0x00000013, 0x00000073, 0x00100073, 0x0FF0000F, 0x0000006F, 0x00C5853B, 0x02C58533,
      0x40C59533, 0x80C58533, 0x00C58532] : List InstrWord).all
        (fun w => decide (decode .exact w = .error .unsupported)) = true := by decide
/-- IL9, IL13 in general mode: they decode to ADD and SRL. -/
theorem test_decode_general :
    (findHandler .general 0x02C58533 = some .add ∧ findHandler .general 0x40C5D533 = some .srl) ∧
      findHandler .general 0x00C58532 = none := by decide

/-! ## One step of each instruction (sections 2.2 to 2.5) -/

-- AR2 and "x5 = 21, add x5, x5, x5 gives x5 = 42"
theorem test_add_wraps : regAfter (oneWord 0x00C58533 0xFFFFFFFFFFFFFFFF 1) 10 = some 0 := by decide
theorem test_add_one_register_thrice : regAfter ((oneWord 0x005282B3 0 0).writeReg 5 21) 5 = some 42 := by decide
-- AR7, AR9
theorem test_sub_order : regAfter (oneWord 0x40C58533 5 7) 10 = some 0xFFFFFFFFFFFFFFFE := by decide
theorem test_sub_overflow : regAfter (oneWord 0x40C58533 0x8000000000000000 1) 10 = some 0x7FFFFFFFFFFFFFFF := by decide
-- SH9, SH10
theorem test_sll : regAfter (oneWord 0x00C59533 0x123456789ABCDEF0 4) 10 = some 0x23456789ABCDEF00 := by decide
theorem test_sll_masks : regAfter (oneWord 0x00C59533 3 0x100000000000003E) 10 = some 0xC000000000000000 := by decide
-- CP4, CP6
theorem test_slt_extremes : regAfter (oneWord 0x00C5A533 0x8000000000000000 0x7FFFFFFFFFFFFFFF) 10 = some 1 := by decide
theorem test_slt_zero : regAfter (oneWord 0x00C5A533 0 0x8000000000000000) 10 = some 0 := by decide
-- CP12, CP10
theorem test_sltu_top_bit : regAfter (oneWord 0x00C5B533 0x8000000000000000 0x7FFFFFFFFFFFFFFF) 10 = some 0 := by decide
theorem test_sltu_below : regAfter (oneWord 0x00C5B533 1 0xFFFFFFFFFFFFFFFF) 10 = some 1 := by decide
-- LG1, LG5
theorem test_xor : regAfter (oneWord 0x00C5C533 0xFF00FF00FF00FF00 0x0FF00FF00FF00FF0) 10 = some 0xF0F0F0F0F0F0F0F0 := by
  decide
theorem test_xor_complement :
    regAfter (oneWord 0x00C5C533 0x123456789ABCDEF0 0xFFFFFFFFFFFFFFFF) 10 = some 0xEDCBA9876543210F := by decide
-- SH11, SH18
theorem test_srl : regAfter (oneWord 0x00C5D533 0xFFFFFFFFFFFFFFF0 1) 10 = some 0x7FFFFFFFFFFFFFF8 := by decide
theorem test_srl_half : regAfter (oneWord 0x00C5D533 0xFFFFFFFFFFFFFFFF 0x20) 10 = some 0x00000000FFFFFFFF := by decide
-- SH26, SH29
theorem test_sra : regAfter (oneWord 0x40C5D533 0xF23456789ABCDEF0 4) 10 = some 0xFF23456789ABCDEF := by decide
theorem test_sra_rounds_down : regAfter (oneWord 0x40C5D533 0xFFFFFFFFFFFFFFFB 1) 10 = some 0xFFFFFFFFFFFFFFFD := by decide
-- LG1, LG6
theorem test_or : regAfter (oneWord 0x00C5E533 0xFF00FF00FF00FF00 0x0FF00FF00FF00FF0) 10 = some 0xFFF0FFF0FFF0FFF0 := by
  decide
theorem test_or_small : regAfter (oneWord 0x00C5E533 5 7) 10 = some 7 := by decide
theorem test_and : regAfter (oneWord 0x00C5F533 0xFF00FF00FF00FF00 0x0FF00FF00FF00FF0) 10 = some 0x0F000F000F000F00 := by
  decide
theorem test_and_small : regAfter (oneWord 0x00C5F533 5 7) 10 = some 5 := by decide

/-! ## Fetch and step faults (X1 to X11, top of the address space) -/

theorem test_X1_X2 :
    faultOf (step (xState true true false 0x1000)) = some .permissionDenied ∧
      faultOf (step (xState false false true 0x1000)) = some .permissionDenied ∧
      faultOf (step (xState true false false 0x1000)) = some .permissionDenied := by decide
theorem test_X3_X4_X5 :
    faultOf (step (xState true false true 0x1006)) = some .unmapped ∧
      faultOf (step (xState true false true 0x1008)) = some .unmapped ∧
      faultOf (step (xState true false true 0x0FFF)) = some .unmapped := by decide
theorem test_X6 :
    (nextOf (step (xState true false true 0x1000))).map (fun t => (t.readReg 10, t.pc)) = some (12, 0x1004) := by decide
theorem test_X7 :
    nextOf (fetch (xState true false true 0x1002)) = some (0x853300C5, 4) ∧
      faultOf (step (xState true false true 0x1002)) = some .unsupported := by decide
theorem test_X9 :
    faultOf (step (stateAt 0x1000 [seg 0x1000 2 true false true, seg 0x1002 6 true false true] 0x1000 codeBytes)) =
      some .unmapped := by decide
theorem test_X10 :
    faultOf (step (stateAt 0x1004 [seg 0x1000 6 true true false, seg 0x1006 2 true false true] 0x1000 codeBytes)) =
      some .unmapped := by decide
theorem test_pc_wraps :
    (nextOf (step (topState 0xFFFFFFFFFFFFFFFC))).map (fun t => (t.readReg 10, t.pc)) = some (0xFFFFFFFFFFFFFFFE, 0) := by
  decide
/-- V2 in general mode. -/
theorem test_V2_general : faultOf (stepIn .general (oneWord 0x40C58533 5 7)) = some .unsupportedVariant := by decide
/-- V4: `add x0, x11, x12`; pc alone moves. -/
theorem test_V4 :
    nextOf (step (oneWord 0x00C58033 5 7)) = some ((oneWord 0x00C58033 5 7).writePc 0x1004) := by decide
/-- Section 2.1, direct calls of execute: execute(XOR, EN1) gives 5 xor 7. -/
theorem test_execute_other_word :
    (nextOf (execute .xor 0x00C58533 (withOps (stateAt 0 [] 0 []) 5 7))).map (·.readReg 10) = some 2 := by decide

/-! ## The memory port and the configuration operations (M and S vectors) -/

theorem test_M1_M4 :
    ((nextOf (store mState 0x2000 64 0x1122334455667788)).map fun t =>
      [nextOf (load t 0x2000 8), nextOf (load t 0x2007 8), nextOf (load t 0x2001 16), nextOf (load t 0x2003 32)]) =
    some [some 0x88, some 0x11, some 0x6677, some 0x22334455] := by decide
theorem test_M6_M7 :
    faultOf (store mState 0x3000 8 0xFF) = some .permissionDenied ∧
      faultOf (load mState 0x4000 8) = some .permissionDenied := by decide
theorem test_M9_M10 :
    faultOf (load mState 0x200C 64) = some .unmapped ∧ faultOf (store mState 0x200E 32 0) = some .unmapped := by decide
theorem test_M11 :
    nextOf (load mState 0x3008 64) = some 0x0F0E0D0C0B0A0908 ∧ faultOf (load mState 0x3009 64) = some .unmapped := by
  decide
theorem test_M15 :
    ((nextOf (store mState 0x2000 8 0x1FF)).map fun t => (nextOf (load t 0x2000 8), nextOf (load t 0x2001 8))) =
      some (some 0xFF, some 0) := by decide
theorem test_M16 : faultOf (load mState 0xFFFFFFFFFFFFFFFF 16) = some .unmapped := by decide

/-- Segment A alone, the start of the S-vectors. -/
def sState : State := stateAt 0 [seg 0x2000 16 true true false] 0 []

theorem test_S1_S8 :
    ((nextOf (addSegment sState 0x2010 0x10 0b011)).isSome && (nextOf (addSegment sState 0xFFFFFFFFFFFFFFF0 0x10 0b101)).isSome) =
      true := by decide
theorem test_S2_to_S5 :
    faultOf (addSegment sState 0x200F 0x10 0b011) = some .overlapError ∧
      faultOf (addSegment sState 0x1FF8 0x10 0b101) = some .overlapError ∧
      faultOf (addSegment sState 0x2004 0x4 0b001) = some .overlapError ∧
      faultOf (addSegment sState 0x1000 0x2000 0b001) = some .overlapError := by decide
theorem test_S6_S7 :
    faultOf (addSegment sState 0x9000 0x10 0b000) = some .invalidPermissions ∧
      faultOf (addSegment sState 0x9000 0x10 0b1001) = some .invalidPermissions ∧
      faultOf (addSegment sState 0x2004 0x4 0b000) = some .invalidPermissions := by decide
theorem test_S9 :
    refusalOf (addSegment sState 0xFFFFFFFFFFFFFFF0 0x11 0b101) = some .illFormedSegment ∧
      refusalOf (addSegment sState 0x9000 0 0b001) = some .illFormedSegment := by decide

/-- R140: the codes, 0 being success. -/
theorem test_fault_codes :
    [Fault.unmapped, .permissionDenied, .unsupported, .unsupportedVariant].map Fault.code = [1, 2, 3, 4] := by decide

/-! ## The host's two questions of every table row, on one word -/

theorem test_decodeTableWord : decodeTableWord 32 0x40C5D533 = some (.sra f20) := by decide
theorem test_withFetchWord :
    (nextOf (step (State.reset.withFetchWord 32 0x002032B3))).map (·.readReg 5) = some 1 := by decide

/-! ## Witnesses: for every statement with hypotheses, values that meet them, clause by clause -/

/-- The largest register numbers. -/
def fMax (f7 : BitVec 7) : RFields := { funct7 := f7, rs2 := 31, rs1 := 31, rd := 31 }

theorem test_witness_DecodeOfEncodeIsIdentity : (Instr.sra (fMax 0x20)).wf = true ∧ (Instr.add (fMax 0)).wf = true := by
  decide

theorem test_witness_DecodedWordIsTheEncoding :
    decode .exact 0x01FF8FB3 = .ok (.add (fMax 0)) ∧ decode .general 0xFFFFFFB3 = .ok (.and (fMax 0x7F)) := by decide

theorem test_witness_ExactDecodeTable :
    (∃ r ∈ exactTable, (0x41FFDFB3 : InstrWord) &&& r.mask = r.pattern) ∧
      (∀ r ∈ exactTable, (0x40C59533 : InstrWord) &&& r.mask ≠ r.pattern) ∧
      (opcode 0x40C59533 = 0x33 ∧ funct7 0x40C59533 ≠ 0x00 ∧
        ¬ (funct7 0x40C59533 = 0x20 ∧ (funct3 0x40C59533 = 0b000 ∨ funct3 0x40C59533 = 0b101))) := by decide

theorem test_witness_GeneralModeDecodesByFunct3 :
    (opcode 0x01FFFFB3 = 0x33 ∧ funct7 0x01FFFFB3 = 0x00) ∧ (opcode 0x02C58533 = 0x33 ∧ funct7 0x02C58533 ≠ 0x00) ∧
      opcode 0x00C58532 ≠ 0x33 := by decide

/-- The words of the five cases: opcode not 0x33; funct7 0; sub; sra; another funct7. -/
theorem test_witness_DecodeModesDifferOnlyOnVariants :
    (∀ w, fetch State.reset ≠ .next (w, 4)) ∧
      (fetch (oneWord 0x00000013 5 7) = .next (0x00000013, 4) ∧ opcode 0x00000013 ≠ 0x33) ∧
      (fetch (oneWord 0x00C58533 5 7) = .next (0x00C58533, 4) ∧ funct7 0x00C58533 = 0x00) ∧
      (fetch (oneWord 0x40C58533 5 7) = .next (0x40C58533, 4) ∧ opcode 0x40C58533 = 0x33 ∧ funct7 0x40C58533 = 0x20 ∧
        funct3 0x40C58533 = 0b000) ∧
      (fetch (oneWord 0x40C5D533 5 7) = .next (0x40C5D533, 4) ∧ opcode 0x40C5D533 = 0x33 ∧ funct7 0x40C5D533 = 0x20 ∧
        funct3 0x40C5D533 = 0b101) ∧
      (fetch (oneWord 0x02C58533 5 7) = .next (0x02C58533, 4) ∧ opcode 0x02C58533 = 0x33 ∧ funct7 0x02C58533 ≠ 0x00 ∧
        ¬ (funct7 0x02C58533 = 0x20 ∧ (funct3 0x02C58533 = 0b000 ∨ funct3 0x02C58533 = 0b101))) := by
  refine ⟨fun w h => ?_, ⟨eq_next (by decide), by decide⟩, ⟨eq_next (by decide), by decide⟩,
    ⟨eq_next (by decide), by decide⟩, ⟨eq_next (by decide), by decide⟩, ⟨eq_next (by decide), by decide⟩⟩
  rw [show fetch State.reset = .fault .unmapped from eq_fault (by decide)] at h
  cases h

theorem test_witness_LegalWordsAreTheOpcodeMap :
    decode .exact 0x41FFDFB3 = .ok (.sra (fMax 0x20)) ∧ decode .general 0xFFFFFFB3 = .ok (.and (fMax 0x7F)) := by decide

theorem test_witness_DecodeIgnoresRegisterFields :
    (0x00000033 : InstrWord) ≠ 0x01FF8FB3 ∧ (0x00000033 : InstrWord) &&& 0xFE00707F = 0x01FF8FB3 &&& 0xFE00707F := by decide

theorem test_witness_RegisterZeroIsHardwired : (31 : Reg) ≠ 0 ∧ (0 : Reg) ≠ 31 ∧ (1 : Reg) ≠ 31 := by decide

theorem test_witness_DestinationZeroChangesNothing :
    ((Instr.add { funct7 := 0, rs2 := 12, rs1 := 11, rd := 0 }).fields.rd = 0 ∧
        (Instr.add { funct7 := 0, rs2 := 12, rs1 := 11, rd := 0 }).wf = true) ∧
      ((Instr.sub { funct7 := 0, rs2 := 12, rs1 := 11, rd := 0 }).fields.rd = 0 ∧
        (Instr.sub { funct7 := 0, rs2 := 12, rs1 := 11, rd := 0 }).wf = false) := by decide

/-- The premises on funct7 and on the pattern, for each of the ten result statements. -/
theorem test_witness_ComputesTo_EncodedAs :
    (f00.funct7 = 0x00 ∧ f20.funct7 ≠ 0x00) ∧ (f20.funct7 = 0x20 ∧ f00.funct7 ≠ 0x20) ∧
      ([(0x01FF8FB3, 0x00000033), (0x41FF8FB3, 0x40000033), (0x01FF9FB3, 0x00001033), (0x01FFAFB3, 0x00002033),
        (0x01FFBFB3, 0x00003033), (0x01FFCFB3, 0x00004033), (0x01FFDFB3, 0x00005033), (0x41FFDFB3, 0x40005033),
        (0x01FFEFB3, 0x00006033), (0x01FFFFB3, 0x00007033)] : List (InstrWord × InstrWord)).all
          (fun p => decide (p.1 &&& 0xFE00707F = p.2)) = true := by decide

theorem test_witness_SltComparesSigned :
    (0x8000000000000000 : Word).toInt < (0x7FFFFFFFFFFFFFFF : Word).toInt ∧ (5 : Word).toInt ≤ (5 : Word).toInt := by decide

theorem test_witness_SltuComparesUnsigned :
    (0x7FFFFFFFFFFFFFFF : Word).toNat < (0x8000000000000000 : Word).toNat ∧ (5 : Word).toNat ≤ (5 : Word).toNat := by decide

theorem test_witness_SltAndSltuAgreeOnEqualTopBits :
    (f00.funct7 = 0x00 ∧ f00.rd ≠ 0) ∧
      ((withOps sState 0x8000000000000000 1).readReg f00.rs1).getLsbD 63 = true ∧
      ((withOps sState 0x8000000000000000 1).readReg f00.rs2).getLsbD 63 = false ∧
      ((withOps sState 1 0x8000000000000000).readReg f00.rs1).getLsbD 63 = false ∧
      ((withOps sState 1 0x8000000000000000).readReg f00.rs2).getLsbD 63 = true := by decide

theorem test_witness_SltAndSltuAgreeOnEqualTopBits_rd0 :
    ({ funct7 := 0, rs2 := 12, rs1 := 11, rd := 0 } : RFields).funct7 = 0x00 ∧
      ({ funct7 := 0, rs2 := 12, rs1 := 11, rd := 0 } : RFields).rd = 0 := by decide

theorem test_witness_SraShiftsRightArithmetically :
    (0x7FFFFFFFFFFFFFFF : Word).getLsbD 63 = false := by decide

theorem test_witness_ShiftAmountIsLowSixBits :
    ((Instr.sll f00).wf = true ∧ (Instr.srl f00).wf = true ∧ (Instr.sra f20).wf = true) ∧
      ((withOps sState 9 1).readReg 11 = (withOps sState 9 65).readReg 11 ∧
        (withOps sState 9 1).readReg 12 &&& 0x3F = (withOps sState 9 65).readReg 12 &&& 0x3F ∧
        (withOps sState 9 1).readReg 12 ≠ (withOps sState 9 65).readReg 12) ∧
      (withOps sState 9 64).readReg 12 &&& 0x3F = 0 ∧
      ({ funct7 := 0, rs2 := 0, rs1 := 11, rd := 10 } : RFields).rs2 = 0 := by decide

theorem test_witness_ExecuteIsTotalAndWritesOneRegister :
    (Instr.sub f20).fields.funct7 = (Instr.sub f20).requiredFunct7 ∧
      (Instr.add f20).fields.funct7 ≠ (Instr.add f20).requiredFunct7 := by decide

theorem test_witness_HandlerChecksFunct7Only :
    funct7 0x40C58533 ≠ (Handler.add.on 0x40C58533).requiredFunct7 ∧
      funct7 0x40C58533 = (Handler.sub.on 0x40C58533).requiredFunct7 ∧
      ((0x00C58533 : InstrWord) ≠ 0x00C5F57F ∧ (0x00C58533 : InstrWord) &&& 0xFFFF8F80 = 0x00C5F57F &&& 0xFFFF8F80) ∧
      decode .general 0x40C58533 = .ok (.add f20) := by decide

theorem test_witness_StepRunsTheDecodedInstruction :
    ((Instr.add f00).wf = true ∧
      findContaining (xState true false true 0x1000).segs (xState true false true 0x1000).pc 4 =
        some (seg 0x1000 8 true false true) ∧
      Memory.readBytes (xState true false true 0x1000).mem (xState true false true 0x1000).pc.toNat 4 =
        encodeBytes (.add f00)) ∧
      fetch (oneWord 0x02C58533 5 7) = .next (0x02C58533, 4) ∧
      decode .general 0x02C58533 = .ok (.add { funct7 := 0x01, rs2 := 12, rs1 := 11, rd := 10 }) :=
  ⟨by decide, eq_next (by decide), by decide⟩

theorem test_witness_FaultsAreFoundInPipelineOrder_step :
    findContaining (xState true false true 0x1006).segs (xState true false true 0x1006).pc 4 = none ∧
      findContaining (xState true false true 0x1004).segs (xState true false true 0x1004).pc 4 =
        some (seg 0x1000 8 true false true) ∧
      (findContaining (xState false false true 0x1000).segs (xState false false true 0x1000).pc 4 =
          some (seg 0x1000 8 false false true) ∧
        ¬ ((seg 0x1000 8 false false true).perm.r = true ∧ (seg 0x1000 8 false false true).perm.x = true)) ∧
      (fetch (xState true false true 0x1002) = .next (0x853300C5, 4) ∧
        decode .exact 0x853300C5 = .error .unsupported) ∧
      (decode .general 0x40C58533 = .ok (.add f20) ∧
        (Instr.add f20).fields.funct7 ≠ (Instr.add f20).requiredFunct7) :=
  ⟨by decide, by decide, by decide, ⟨eq_next (by decide), by decide⟩, by decide⟩

theorem test_witness_FaultsAreFoundInPipelineOrder_port :
    (accessBytes 64 = some 8 ∧ findContaining mState.segs 0x3009 8 = none) ∧
      (accessBytes 16 = some 2 ∧ findContaining mState.segs 0x4000 2 = some (seg 0x4000 16 false true false) ∧
        (seg 0x4000 16 false true false).perm.r = false ∧ (seg 0x4000 16 false true false).perm.w = true) ∧
      (accessBytes 8 = some 1 ∧ findContaining mState.segs 0x300F 1 = some (seg 0x3000 16 true false false) ∧
        (seg 0x3000 16 true false false).perm.w = false ∧ (seg 0x3000 16 true false false).perm.r = true) := by decide

theorem test_witness_StepAdvancesPcByFour :
    ((topState 0xFFFFFFFFFFFFFFFD).wf ∧ 2 ^ 64 - 4 < (topState 0xFFFFFFFFFFFFFFFD).pc.toNat) ∧
      ((topState 0xFFFFFFFFFFFFFFF8).wf ∧ (topState 0xFFFFFFFFFFFFFFF8).pc.toNat < 2 ^ 64 - 4 ∧
        ∃ t, step (topState 0xFFFFFFFFFFFFFFF8) = .next t) ∧
      ((topState 0xFFFFFFFFFFFFFFFC).wf ∧ (topState 0xFFFFFFFFFFFFFFFC).pc.toNat = 2 ^ 64 - 4 ∧
        ∃ t, step (topState 0xFFFFFFFFFFFFFFFC) = .next t) :=
  ⟨by decide, ⟨by decide, by decide, exists_next (by decide)⟩, ⟨by decide, by decide, exists_next (by decide)⟩⟩

/-- pc is 2 modulo 4, and the window ends where the segment ends. -/
theorem test_witness_PcKeepsItsResidueAndNeedsNoAlignment :
    (∃ t, step (stateAt 0x1002 [seg 0x1002 4 true false true] 0x1002 [0x33, 0x85, 0xC5, 0x00]) = .next t) ∧
      ((xState true false true 0x1004).wf ∧ seg 0x1000 8 true false true ∈ (xState true false true 0x1004).segs ∧
        (seg 0x1000 8 true false true).start.toNat ≤ (xState true false true 0x1004).pc.toNat ∧
        (xState true false true 0x1004).pc.toNat + 4 ≤ (seg 0x1000 8 true false true).stop ∧
        (seg 0x1000 8 true false true).perm.r = true ∧ (seg 0x1000 8 true false true).perm.x = true) :=
  ⟨exists_next (by decide), by decide⟩

theorem test_witness_FetchAssemblesFourBytes :
    ((xState true false true 0x1005).wf ∧ ∀ g ∈ (xState true false true 0x1005).segs,
        ¬ (g.start.toNat ≤ (xState true false true 0x1005).pc.toNat ∧
          (xState true false true 0x1005).pc.toNat + 4 ≤ g.stop)) ∧
      ((xState true true false 0x1000).wf ∧ seg 0x1000 8 true true false ∈ (xState true true false 0x1000).segs ∧
        ¬ ((seg 0x1000 8 true true false).perm.r = true ∧ (seg 0x1000 8 true true false).perm.x = true)) ∧
      ((xState true false true 0x1004).wf ∧ seg 0x1000 8 true false true ∈ (xState true false true 0x1004).segs ∧
        (xState true false true 0x1004).pc.toNat + 4 ≤ (seg 0x1000 8 true false true).stop) := by decide

theorem test_witness_RunsAreStraightLine :
    ∃ t, runIn .exact 2 (xState true false true 0x1000) = .next t := exists_next (by decide)

/-- The path from 0x1000 faults at its third address; general mode ends earlier, at the sub word. -/
theorem test_witness_RunEndsWhereThePathFaults :
    stepIn .exact ((xState true false true 0x1000).writePc
        (BitVec.ofNat 64 ((xState true false true 0x1000).pc.toNat + 4 * 2))) = .fault .unmapped ∧
      (∃ t, RunEnds .exact (xState true false true 0x1000) 2 t .unmapped) ∧
      ∃ t, RunEnds .general (xState true false true 0x1000) 1 t .unsupportedVariant := by
  refine ⟨eq_fault (by decide), ?_, ?_⟩
  · obtain ⟨t, h⟩ := exists_next (o := runIn .exact 2 (xState true false true 0x1000)) (by decide)
    refine ⟨t, h, eq_fault ?_⟩
    have e : (nextOf (runIn .exact 2 (xState true false true 0x1000))).map (fun t => faultOf (stepIn .exact t)) =
      some (some .unmapped) := by decide
    rw [h] at e
    simpa [nextOf] using e
  · obtain ⟨t, h⟩ := exists_next (o := runIn .general 1 (xState true false true 0x1000)) (by decide)
    refine ⟨t, h, eq_fault ?_⟩
    have e : (nextOf (runIn .general 1 (xState true false true 0x1000))).map (fun t => faultOf (stepIn .general t)) =
      some (some .unsupportedVariant) := by decide
    rw [h] at e
    simpa [nextOf] using e

theorem test_witness_RegistersNeverSteerControl :
    ((oneWord 0x00C58533 5 7).pc = (oneWord 0x00C58533 1 2).pc ∧
        (oneWord 0x00C58533 5 7).segs = (oneWord 0x00C58533 1 2).segs ∧
        (oneWord 0x00C58533 5 7).mem = (oneWord 0x00C58533 1 2).mem) ∧
      (∃ t, runIn .exact 1 (oneWord 0x00C58533 1 2) = .next t) ∧
      runIn .exact 3 (oneWord 0x00C58533 1 2) = .fault .unsupported :=
  ⟨by decide, exists_next (by decide), eq_fault (by decide)⟩

theorem test_witness_StepKeepsTheAddressSpaceSound :
    (xState true false true 0x1000).wf ∧ ∃ t, stepIn .exact (xState true false true 0x1000) = .next t :=
  ⟨by decide, exists_next (by decide)⟩

/-- The state after a host move, as data. -/
def movedTo (v : HostMove) (s : State) : Option State :=
  match hostMove v s with
  | .ok t => some t
  | .error _ => none

theorem eq_ok {v : HostMove} {s t : State} (h : movedTo v s = some t) : hostMove v s = .ok t := by
  unfold movedTo at h
  split at h <;> simp_all

/-- A move that succeeds, and one that fails (M6) and leaves the state as it was. -/
theorem test_witness_HostMovesKeepTheAddressSpaceSound :
    (sState.wf ∧ hostMove (.writePc 4) sState = .ok (sState.writePc 4)) ∧
      (mState.wf ∧ hostMove (.writeMemory 0x3000 8 0xFF) mState = .ok mState) :=
  ⟨⟨by decide, eq_ok (by decide)⟩, by decide, eq_ok (by decide)⟩

/-- Widths and ranges on either side of the domain (S9, S8). -/
theorem test_witness_HostMoveIsRefusedOnlyOutsideTheDomain :
    ((24 : Nat) ≠ 8 ∧ (24 : Nat) ≠ 16 ∧ (24 : Nat) ≠ 32 ∧ (24 : Nat) ≠ 64) ∧
      ((64 : Nat) = 8 ∨ (64 : Nat) = 16 ∨ (64 : Nat) = 32 ∨ (64 : Nat) = 64) ∧
      ¬ (1 ≤ 0x11 ∧ (0xFFFFFFFFFFFFFFF0 : Word).toNat + 0x11 ≤ 2 ^ 64) ∧
      (1 ≤ 0x10 ∧ (0xFFFFFFFFFFFFFFF0 : Word).toNat + 0x10 ≤ 2 ^ 64) := by decide

/-- R7: a refused use has no state after it, so it is no way to go on. -/
theorem test_refused_move_has_no_next : movedTo (.addSegment 0x9000 0 0b001) sState = none := by decide

/-- A file header, byte by byte: identification, type 2, machine 243, version 1, entry 0x400000, header table at 64, three
headers of 56 bytes. -/
def goodHeaderBytes : List Byte :=
  [0x7F, 0x45, 0x4C, 0x46, 2, 1, 1, 0, 0, 0, 0, 0, 0, 0, 0, 0] ++ [2, 0, 243, 0, 1, 0, 0, 0] ++ [0, 0, 0x40, 0, 0, 0, 0, 0] ++
    [64, 0, 0, 0, 0, 0, 0, 0] ++ [0, 0, 0, 0, 0, 0, 0, 0] ++ [0, 0, 0, 0, 64, 0, 56, 0, 3, 0, 0, 0, 0, 0, 0, 0]

/-- PT_LOAD, flags R and X (5): 8 bytes from offset 232 to 0x400000, memory size 10. -/
def codeHeaderBytes : List Byte :=
  [1, 0, 0, 0, 5, 0, 0, 0] ++ [232, 0, 0, 0, 0, 0, 0, 0] ++ [0, 0, 0x40, 0, 0, 0, 0, 0] ++ [0, 0, 0x40, 0, 0, 0, 0, 0] ++
    [8, 0, 0, 0, 0, 0, 0, 0] ++ [10, 0, 0, 0, 0, 0, 0, 0] ++ [0, 0, 0, 0, 0, 0, 0, 0]

/-- PT_LOAD, flags R and W (6), which read otherwise with R and X exchanged: 1 byte to 0x500000, memory size 16. -/
def dataHeaderBytes : List Byte :=
  [1, 0, 0, 0, 6, 0, 0, 0] ++ [232, 0, 0, 0, 0, 0, 0, 0] ++ [0, 0, 0x50, 0, 0, 0, 0, 0] ++ [0, 0, 0x50, 0, 0, 0, 0, 0] ++
    [1, 0, 0, 0, 0, 0, 0, 0] ++ [16, 0, 0, 0, 0, 0, 0, 0] ++ [0, 0, 0, 0, 0, 0, 0, 0]

/-- A header of another type (4), which would overlap the code if it were acted on. -/
def noteHeaderBytes : List Byte :=
  [4, 0, 0, 0, 4, 0, 0, 0] ++ [232, 0, 0, 0, 0, 0, 0, 0] ++ [0, 0, 0x40, 0, 0, 0, 0, 0] ++ [0, 0, 0x40, 0, 0, 0, 0, 0] ++
    [1, 0, 0, 0, 0, 0, 0, 0] ++ [1, 0, 0, 0, 0, 0, 0, 0] ++ [0, 0, 0, 0, 0, 0, 0, 0]

def goodFile : List Byte :=
  goodHeaderBytes ++ codeHeaderBytes ++ dataHeaderBytes ++ noteHeaderBytes ++ codeBytes

theorem goodFile_header :
    readFileHeader goodFile =
      some { magic := [0x7F, 0x45, 0x4C, 0x46], fileClass := 2, dataEncoding := 1, identVersion := 1, osAbi := 0,
             fileType := 2, machine := 243, version := 1, entry := 0x400000, tableOffset := 64, entrySize := 56,
             headerCount := 3 } := by decide +kernel

theorem launch_goodFile : ∃ s, loadProcess goodFile (some 64) 0xFFFFFFFFFFFFFFC0 = .next s := exists_next (by decide +kernel)

/-- R179: PF_R 4, PF_W 2, PF_X 1, so flags 5 is R and X and flags 6 is R and W. -/
theorem test_launch_segments :
    (nextOf (loadProcess goodFile (some 64) 0xFFFFFFFFFFFFFFC0)).map (·.segs) =
      some [seg 0x400000 10 true false true, seg 0x500000 16 true true false, seg 0xFFFFFFFFFFFFFFC0 64 true true false] := by
  decide +kernel

/-- The table is walked by its entry size: with 57 and a count of 2 the second header read is one byte off. -/
theorem test_header_stride :
    (readFileHeader ((goodFile.set 54 57).set 56 2)).map (·.headerOffset 1) = some 121 := by decide +kernel

/-- A launch whose stack ends exactly at 2^64, so that the stack pointer is 0 (R172), and its first step. -/
theorem test_witness_EveryReachableStateIsSound : ∃ s t, Reachable .exact s ∧ stepIn .exact s = .next t := by
  obtain ⟨s, h⟩ := launch_goodFile
  have e : ((nextOf (loadProcess goodFile (some 64) 0xFFFFFFFFFFFFFFC0)).bind
    (fun s => nextOf (stepIn .exact s))).isSome = true := by decide +kernel
  rw [h] at e
  obtain ⟨t, ht⟩ := exists_next (o := stepIn .exact s) (by simpa [nextOf] using e)
  exact ⟨s, t, .launched _ _ _ s h, ht⟩

theorem test_witness_LaunchRegisters : ∃ s, loadProcess goodFile (some 64) 0xFFFFFFFFFFFFFFC0 = .next s := launch_goodFile

/-- The second header, loadable and with R and W but not X, a byte of its file part (0) and one of its zero tail (15), and a
byte of the stack (63). -/
theorem test_witness_LaunchAddressSpace :
    (∃ s, loadProcess goodFile (some 64) 0xFFFFFFFFFFFFFFC0 = .next s) ∧ 1 < 3 ∧
      readProgramHeader goodFile (64 + 1 * 56) =
        some { headerType := 1, flags := 6, virtualAddress := 0x500000, fileOffset := 232, fileSize := 1, memorySize := 16 } ∧
      ((6 : Nat).testBit 2 = true ∧ (6 : Nat).testBit 1 = true ∧ (6 : Nat).testBit 0 = false) ∧ 0 < 1 ∧ 15 < 16 ∧
      63 < (some 64 : Option Nat).getD 2097152 := ⟨launch_goodFile, by decide +kernel⟩

theorem test_witness_ElfFieldsAreReadFromTheirPlaces :
    (goodFile.take 63).length < 64 ∧ 64 ≤ (goodFile.take 64).length ∧ (goodFile.take 119).length < 64 + 56 ∧
      64 + 56 ≤ (goodFile.take 120).length := by decide

/-- A count of 5 runs past the file's end; a file part of 11 bytes is larger than its memory; a file cut one byte short does
not hold the code. -/
theorem test_witness_LaunchFailsOnUnreadableHeadersAndSegments :
    ((readFileHeader (goodFile.set 56 5)).isSome = true ∧ (goodFile.set 56 5).length < 64 + 4 * 56 + 56 ∧
        faultOf (loadProcess (goodFile.set 56 5) (some 64) 0xFFFFFFFFFFFFFFC0) = some .cannotReadProgramHeader) ∧
      (((readProgramHeader (goodFile.set 96 11) (64 + 0 * 56)).map fun p =>
          decide (p.headerType = 1 ∧ p.memorySize < p.fileSize)) = some true ∧
        faultOf (loadProcess (goodFile.set 96 11) (some 64) 0xFFFFFFFFFFFFFFC0) = some .segmentMemoryTooSmall) ∧
      (((readProgramHeader (goodFile.take 239) (64 + 0 * 56)).map fun p =>
          decide (p.headerType = 1 ∧ p.fileSize ≤ p.memorySize ∧ (goodFile.take 239).length < p.fileOffset + p.fileSize)) =
          some true ∧
        faultOf (loadProcess (goodFile.take 239) (some 64) 0xFFFFFFFFFFFFFFC0) = some .cannotReadSegment) ∧
      (nextOf (addSegment (newProcess 0) 0x400000 10 (translateFlags 5).toBits)).isSome = true := by decide +kernel

theorem test_witness_OverlapIsASharedAddress :
    ((seg 0x2000 16 true true false).fits = true ∧ (seg 0x200F 16 true true false).fits = true ∧
        (seg 0xFFFFFFFFFFFFFFF0 16 true false true).fits = true) ∧
      (mState.wf ∧ seg 0x2000 16 true true false ∈ mState.segs ∧ (seg 0x2000 16 true true false).covers 0x200F = true) := by
  decide

theorem test_witness_WindowLiesInOneSegmentOrNone :
    mState.wf ∧
      (seg 0x2000 16 true true false ∈ mState.segs ∧ (seg 0x2000 16 true true false).start.toNat ≤ (0x2000 : Word).toNat ∧
        (0x2000 : Word).toNat + 16 ≤ (seg 0x2000 16 true true false).stop) ∧
      (∀ g ∈ mState.segs, ¬ (g.start.toNat ≤ (0x2FFF : Word).toNat ∧ (0x2FFF : Word).toNat + 2 ≤ g.stop)) ∧
      ((seg 0x2000 16 true true false).covers (0x200C : Word).toNat = true ∧
        (seg 0x2000 16 true true false).stop < (0x200C : Word).toNat + 8) ∧
      2 ^ 64 < (0xFFFFFFFFFFFFFFFF : Word).toNat + 2 := by decide

theorem test_witness_LoadAssemblesLittleEndian :
    (mState.wf ∧ accessBytes 64 = some 8) ∧ (∀ g ∈ mState.segs, g.contains (0x3009 : Word).toNat 8 = false) ∧
      (seg 0x4000 16 false true false ∈ mState.segs ∧ (seg 0x4000 16 false true false).contains (0x4000 : Word).toNat 8 = true ∧
        (seg 0x4000 16 false true false).perm.r = false) ∧
      (seg 0x3000 16 true false false ∈ mState.segs ∧ (seg 0x3000 16 true false false).contains (0x3008 : Word).toNat 8 = true ∧
        (seg 0x3000 16 true false false).perm.r = true) := by decide

theorem test_witness_StoreWritesItsWindowOnly :
    (mState.wf ∧ accessBytes 32 = some 4) ∧ (∀ g ∈ mState.segs, g.contains (0x200E : Word).toNat 4 = false) ∧
      (seg 0x3000 16 true false false ∈ mState.segs ∧ (seg 0x3000 16 true false false).contains (0x3000 : Word).toNat 4 = true ∧
        (seg 0x3000 16 true false false).perm.w = false) ∧
      (seg 0x4000 16 false true false ∈ mState.segs ∧ (seg 0x4000 16 false true false).contains (0x400C : Word).toNat 4 = true ∧
        (seg 0x4000 16 false true false).perm.w = true) ∧
      ¬ ((0x400C : Word).toNat ≤ 0x400B ∧ 0x400B < (0x400C : Word).toNat + 4) := by decide

theorem test_witness_ContainmentBeforePermission :
    (accessBytes 16 = some 2 ∧ ∀ g ∈ mState.segs, g.contains (0x300F : Word).toNat 2 = false) ∧
      load mState 0x4000 16 = .fault .permissionDenied ∧ store mState 0x3000 16 0 = .fault .permissionDenied ∧
      (∀ g ∈ (xState false true false 0x1005).segs, g.contains (xState false true false 0x1005).pc.toNat 4 = false) ∧
      fetch (xState true true false 0x1004) = .fault .permissionDenied :=
  ⟨by decide, eq_fault (by decide), eq_fault (by decide), by decide, eq_fault (by decide)⟩

/-- A misaligned 64-bit window, and a value of the width 8. -/
theorem test_witness_StoreThenLoadReturnsTheValue :
    mState.wf ∧ accessBytes 64 = some 8 ∧ accessBytes 8 = some 1 ∧ seg 0x2000 16 true true false ∈ mState.segs ∧
      (seg 0x2000 16 true true false).contains (0x2003 : Word).toNat 8 = true ∧
      (seg 0x2000 16 true true false).perm.r = true ∧ (seg 0x2000 16 true true false).perm.w = true ∧
      (0xFF : Word).toNat < 2 ^ 8 := by decide

theorem test_witness_MixedWidthsSeeOneByteArray :
    (mState.wf ∧ seg 0x2000 16 true true false ∈ mState.segs ∧ (seg 0x2000 16 true true false).perm.r = true ∧
        (seg 0x2000 16 true true false).contains (0x2008 : Word).toNat 8 = true ∧
        (seg 0x2000 16 true true false).perm.w = true ∧ 7 < 8) ∧
      (rwxState.wf ∧ seg 0x30000 256 true true true ∈ rwxState.segs) ∧ fetch rwxState = .next (0x00C58533, 4) :=
  ⟨by decide, by decide, eq_next (by decide)⟩

/-- The host's store of P3, at the address the next fetch reads, and an overlap of the two windows in one byte. -/
theorem test_witness_FetchSeesEarlierStores :
    rwxState.wf ∧ accessBytes 32 = some 4 ∧ (∃ t w, store rwxState 0x30003 32 0x33 = .next t ∧ fetch t = .next (w, 4)) ∧
      (0x30003 : Word).toNat + 0 = rwxState.pc.toNat + 3 := by
  refine ⟨by decide, by decide, ?_, by decide⟩
  obtain ⟨t, h⟩ := exists_next (o := store rwxState 0x30003 32 0x33) (by decide)
  have e : ((nextOf (store rwxState 0x30003 32 0x33)).map fun t => nextOf (fetch t)) = some (some (0x33C58533, 4)) := by decide
  rw [h] at e
  exact ⟨t, _, h, eq_next (by simpa [nextOf] using e)⟩

theorem test_witness_WidthsOutsideTheDomainAreRefused :
    ((0 : Nat) ≠ 8 ∧ (0 : Nat) ≠ 16 ∧ (0 : Nat) ≠ 32 ∧ (0 : Nat) ≠ 64) ∧
      ((128 : Nat) ≠ 8 ∧ (128 : Nat) ≠ 16 ∧ (128 : Nat) ≠ 32 ∧ (128 : Nat) ≠ 64) := by decide

theorem test_witness_AddSegmentContract :
    ¬ (1 ≤ 0 ∧ (0x9000 : Word).toNat + 0 ≤ 2 ^ 64) ∧ ¬ (1 ≤ 0x11 ∧ (0xFFFFFFFFFFFFFFF0 : Word).toNat + 0x11 ≤ 2 ^ 64) ∧
      (1 ≤ 0x10 ∧ (0xFFFFFFFFFFFFFFF0 : Word).toNat + 0x10 ≤ 2 ^ 64) ∧ 8 ≤ (0b1000 : BitVec 8).toNat ∧
      ((0b111 : BitVec 8) ≠ 0 ∧ (0b111 : BitVec 8).toNat < 8) ∧
      (∃ h ∈ sState.segs, h.start.toNat < (0x200F : Word).toNat + 0x10 ∧ (0x200F : Word).toNat < h.stop) ∧
      ∀ h ∈ sState.segs, ¬ (h.start.toNat < (0x2010 : Word).toNat + 0x10 ∧ (0x2010 : Word).toNat < h.stop) := by decide

theorem test_witness_RemoveSegmentContract :
    mState.wf ∧ seg 0x3000 16 true false false ∈ mState.segs ∧ seg 0x3000 16 true true false ∉ mState.segs ∧
      (seg 0x3000 16 true false false).covers 0x300F = true ∧ (seg 0x3000 16 true false false).covers 0x3010 = false := by
  decide

theorem test_witness_ResetHoldsTheLaunchValues :
    (0x00007FFFFFE00000 ≤ 0x00007FFFFFE00000 ∧ 0x00007FFFFFE00000 < 0x0000800000000000) ∧
      (0x00007FFFFFE00000 ≤ 0x00007FFFFFFFFFFF ∧ 0x00007FFFFFFFFFFF < 0x0000800000000000) := by decide

/-- The load error of a file that is goodFile but for one byte. -/
def errorWith (offset : Nat) (b : Byte) : Option LoadError :=
  faultOf (loadProcess (goodFile.set offset b) (some 64) 0xFFFFFFFFFFFFFFC0)

/-- For each check a file whose header can be read and on which it is the first to fail; V9 is the machine field. -/
theorem test_witness_FirstViolatedHeaderCheckNamesTheError :
    (readFileHeader (goodFile.set 18 62)).isSome = true ∧ errorWith 3 0x47 = some .badMagic ∧
      errorWith 4 1 = some .badClass ∧ errorWith 5 2 = some .badDataEncoding ∧ errorWith 6 0 = some .badIdentVersion ∧
      errorWith 7 3 = some .badOsAbi ∧ errorWith 16 3 = some .badFileType ∧ errorWith 18 62 = some .badMachine ∧
      errorWith 20 2 = some .badVersion := by decide +kernel

end Sys2Proof.Tests
end

section
/-! The register file read back after a write, case by case, and the statement of R12 (spec/10_state.md). -/

namespace Sys2Proof.Machine

/-- A register other than x0 keeps what is written to it (R12). -/
theorem State.readReg_writeReg_same (s : State) {i : Reg} (hi : i ≠ 0) (v : Word) :
    (s.writeReg i v).readReg i = v := by
  rw [State.readReg_writeReg, if_pos ⟨rfl, hi⟩]

/-- The frame of a register write: no other register changes (R12). -/
theorem State.readReg_writeReg_of_ne (s : State) {i j : Reg} (hj : j ≠ i) (v : Word) :
    (s.writeReg i v).readReg j = s.readReg j := by
  rw [State.readReg_writeReg, if_neg fun h => hj h.1]

/-- Settles O9: the rules for x0, for the register written, and for every other register, put together. -/
theorem registerZeroIsHardwired : Obligations.RegisterZeroIsHardwired := by
  intro s v
  refine ⟨State.readReg_zero s, State.writeReg_zero s v, fun i hi => ⟨?written, fun j hj => ?others⟩⟩
  case written => exact State.readReg_writeReg_same s hi v
  case others => exact State.readReg_writeReg_of_ne s hj v

end Sys2Proof.Machine
end

section
/-! Faults of an access, for every kind of it: load, store and fetch fault exactly as resolve does, and resolve answers
containment before permission (R37, spec/20_memory.md). -/

namespace Sys2Proof.Machine

/-- Unmapped is answered exactly when no segment contains the window, whatever permission is asked for (R37). -/
theorem resolve_unmapped {s : State} {a : Word} {n : Nat} {p : Perm → Bool} :
    resolve s a n p = .fault .unmapped ↔ ∀ g ∈ s.segs, g.contains a.toNat n = false := by
  rw [← findContaining_none]
  rcases resolve_cases s a n p with ⟨hf, hr⟩ | ⟨g, hf, -, hr⟩ | ⟨g, hf, -, hr⟩ <;> simp [hf, hr]

/-- A denied permission is that of a segment which contains the window (R37). -/
theorem resolve_permissionDenied {s : State} {a : Word} {n : Nat} {p : Perm → Bool}
    (h : resolve s a n p = .fault .permissionDenied) : ∃ g ∈ s.segs, g.contains a.toNat n = true := by
  rcases resolve_cases s a n p with ⟨-, hr⟩ | ⟨g, hf, -, -⟩ | ⟨g, -, -, hr⟩
  · simp [hr] at h
  · exact ⟨g, findContaining_some hf⟩
  · simp [hr] at h

/-- Once its window is resolved a load cannot fail (R34). -/
theorem load_fault {s : State} {a : Word} {bits n : Nat} (hn : accessBytes bits = some n) {r : Fault} :
    load s a bits = .fault r ↔ resolve s a n Perm.allowsLoad = .fault r := by
  simp [load, hn, andThen_eq_fault]

/-- Once its window is resolved a store cannot fail (R35). -/
theorem store_fault {s : State} {a v : Word} {bits n : Nat} (hn : accessBytes bits = some n) {r : Fault} :
    store s a bits v = .fault r ↔ resolve s a n Perm.allowsStore = .fault r := by
  simp [store, hn, andThen_eq_fault]

/-- Once its window is resolved a fetch cannot fail (R80). -/
theorem fetch_fault {s : State} {r : Fault} :
    fetch s = .fault r ↔ resolve s s.pc 4 Perm.allowsFetch = .fault r := by
  simp [fetch, andThen_eq_fault]

/-- Settles O41: each access faults as resolve does on its window, and resolve tests containment first. -/
theorem containmentBeforePermission : Obligations.ContainmentBeforePermission := by
  refine ⟨fun s a v bits n hn => ⟨fun hnone => ⟨?loadUnmapped, ?storeUnmapped⟩, ?dataDenied⟩,
    fun s => ⟨?fetchUnmapped, ?fetchDenied⟩⟩
  case loadUnmapped => exact (load_fault hn).2 (resolve_unmapped.2 hnone)
  case storeUnmapped => exact (store_fault hn).2 (resolve_unmapped.2 hnone)
  case dataDenied =>
    rintro (hload | hstore)
    · exact resolve_permissionDenied ((load_fault hn).1 hload)
    · exact resolve_permissionDenied ((store_fault hn).1 hstore)
  case fetchUnmapped => exact fun hnone => fetch_fault.2 (resolve_unmapped.2 hnone)
  case fetchDenied => exact fun hdenied => resolve_permissionDenied (fetch_fault.1 hdenied)

end Sys2Proof.Machine
end

section
/-! Fetch, by the segment that holds the window at pc: denied without R and X, and otherwise the word whose bytes are
those the address space holds there (R80, spec/40_fetch_decode_execute.md). -/

namespace Sys2Proof.Machine

/-- Fetch needs R and X both (R36, R80). -/
theorem Perm.allowsFetch_iff (p : Perm) : p.allowsFetch = true ↔ p.r = true ∧ p.x = true := by
  simp [Perm.allowsFetch]

/-- A window found in a segment without the permission is denied (R37). -/
theorem resolve_of_denied {s : State} {a : Word} {n : Nat} {p : Perm → Bool} {g : Segment}
    (hg : findContaining s.segs a n = some g) (hp : p g.perm = false) :
    resolve s a n p = .fault .permissionDenied := by
  simp [resolve, hg, hp, raise]

/-- Without R or without X on the segment of the window, fetch is denied (R80). -/
theorem fetch_of_denied {s : State} {g : Segment} (hg : findContaining s.segs s.pc 4 = some g)
    (hp : ¬ (g.perm.r = true ∧ g.perm.x = true)) : fetch s = .fault .permissionDenied :=
  fetch_fault.2 (resolve_of_denied hg (by rwa [← Perm.allowsFetch_iff, Bool.not_eq_true] at hp))

/-- With R and X on the segment of the window, fetch gives the word of its four bytes (R80). -/
theorem fetch_of_allowed {s : State} {g : Segment} (hg : findContaining s.segs s.pc 4 = some g)
    (hr : g.perm.r = true) (hx : g.perm.x = true) :
    fetch s = .next (wordOfBytes (Memory.readBytes s.mem s.pc.toNat 4), 4) := by
  rw [fetch, resolve_next.2 ⟨hg, (Perm.allowsFetch_iff _).2 ⟨hr, hx⟩⟩, andThen_next]

/-- Byte k of the word assembled at an address is the byte read k further (R41). -/
theorem extractByte_wordOfBytes_readBytes (m : Memory) (a : Nat) {k : Nat} (hk : k < 4) :
    (wordOfBytes (Memory.readBytes m a 4)).extractLsb' (8 * k) 8 = Memory.read m (a + k) := by
  rw [wordOfBytes, extractByte_leNat _ k (by omega), Memory.readBytes_getD m a 4 k hk]

/-- Every address of a window that lies in a segment reads as the store has it (R24, R33). -/
theorem byteAt_of_contains {s : State} {g : Segment} (hg : g ∈ s.segs) {a n k : Nat}
    (hc : g.contains a n = true) (hk : k < n) : s.byteAt (a + k) = some (Memory.read s.mem (a + k)) := by
  rw [Segment.contains_iff] at hc
  exact byteAt_of_covers hg ((Segment.covers_iff ..).2 (by omega))

/-- Settles O30: with no containing segment resolve faults; in a sound table a containing one is the segment found, and
its permissions decide between the denial and the word of the four bytes. -/
theorem fetchAssemblesFourBytes : Obligations.FetchAssemblesFourBytes := by
  intro s hw
  refine ⟨fun hnone => ?unmapped, fun g hg hstart hstop => ?contained⟩
  case unmapped =>
    refine fetch_fault.2 (resolve_unmapped.2 fun g hg => ?_)
    rw [← Bool.not_eq_true, Segment.contains_iff]
    exact hnone g hg
  case contained =>
    have hc : g.contains s.pc.toNat 4 = true := (Segment.contains_iff ..).2 ⟨hstart, hstop⟩
    have hfound : findContaining s.segs s.pc 4 = some g := (findContaining_eq_some hw.1 (by omega)).2 ⟨hg, hc⟩
    refine ⟨fetch_of_denied hfound, fun hr hx => ⟨_, fetch_of_allowed hfound hr hx, fun k hk => ?_⟩⟩
    rw [byteAt_of_contains hg hc hk, extractByte_wordOfBytes_readBytes _ _ hk]

end Sys2Proof.Machine
end

section
/-! Execute, by its one check: what a well-formed instruction answers from every state, and what any other does (R85, R86,
R88, spec/40_fetch_decode_execute.md). -/

namespace Sys2Proof

/-- The check of a handler is that funct7 is the required value (R85). -/
theorem Instr.wf_iff (i : Instr) : i.wf = true ↔ i.fields.funct7 = i.requiredFunct7 := by
  simp [Instr.wf]

namespace Machine

/-- A passing instruction writes its result to rd (R86). -/
theorem exec_of_wf {i : Instr} (hi : i.wf = true) (s : State) :
    exec i s = .next (s.writeReg i.fields.rd (resultOf i (s.readReg i.fields.rs1) (s.readReg i.fields.rs2))) :=
  exec_next.2 ⟨hi, rfl⟩

/-- A failing funct7 test is the fault UnsupportedVariant (R85). -/
theorem exec_of_not_wf {i : Instr} (hi : i.wf = false) (s : State) : exec i s = .fault .unsupportedVariant := by
  rcases exec_cases i s with ⟨-, hfault⟩ | ⟨hwf, -⟩
  · exact hfault
  · simp [hi] at hwf

/-- Settles O23: a passing instruction is one register write, and a register write changes that register alone. -/
theorem executeIsTotalAndWritesOneRegister : Obligations.ExecuteIsTotalAndWritesOneRegister := by
  intro i s
  refine ⟨fun hpass => ?passes, fun hfail => ?fails⟩
  case passes => exact ⟨_, _, exec_of_wf ((Instr.wf_iff i).2 hpass) s, wroteOnly_writeReg s _ _⟩
  case fails => exact exec_of_not_wf (by rwa [← Bool.not_eq_true, Instr.wf_iff]) s

/-- Settles O10: x0 reads zero, a passing instruction's one write goes to x0 and is discarded, and the funct7 test does
not look at rd. -/
theorem destinationZeroChangesNothing : Obligations.DestinationZeroChangesNothing := by
  intro i s
  refine ⟨State.readReg_zero s, fun hrd hwf => ?passes, fun _ hwf => ?fails⟩
  case passes => rw [exec_of_wf hwf, hrd, State.writeReg_zero]
  case fails => exact exec_of_not_wf hwf s

end Machine

end Sys2Proof
end

section
/-! What the statements of the single instructions have in common: the clause on the encoding, the clause on general
mode and the clause on execution, each from the facts that differ between instructions (R64 to R66, R84 to R86). -/

namespace Sys2Proof

/-- Every entry of either table looks at bits of the exact mask only (R65, R66). -/
theorem decodeTable_mask (m : DecodeMode) : ∀ r ∈ decodeTable m, 0xFE00707F &&& r.mask = r.mask := by
  cases m <;> decide

/-- A word has the handler of its pattern, in either mode (R82). -/
theorem findHandler_of_pattern (m : DecodeMode) {w p : InstrWord} (hp : w &&& 0xFE00707F = p) :
    findHandler m w = findHandler m p := by
  refine findHandler_congr fun r hr => ?_
  rw [DecodeRow.hits, DecodeRow.hits, ← hp, BitVec.and_assoc, decodeTable_mask m r hr]

/-- A word whose pattern has a handler decodes to that handler on the word (R82). -/
theorem decode_of_pattern {m : DecodeMode} {w p : InstrWord} {h : Handler} (hfound : findHandler m p = some h)
    (hp : w &&& 0xFE00707F = p) : decode m w = .ok (h.on w) :=
  decode_ok.2 ⟨h, (findHandler_of_pattern m hp).trans hfound, rfl⟩

namespace Machine

/-- The layout of R61 is the encoding of its fields. -/
theorem wordOfFields_eq_encodeFields (f7 : BitVec 7) (rs2 rs1 : Reg) (f3 : BitVec 3) (rd : Reg) :
    wordOfFields f7 rs2 rs1 f3 rd =
      encodeFields { funct7 := f7, rs2 := rs2, rs1 := rs1, rd := rd } f3 opcodeOP := rfl

/-- The encoding clause of an instruction: its pattern is the layout with all register fields zero, and the exact table
has its handler for the pattern (R64, R65). -/
theorem encodedAs_of_pattern {f7 : BitVec 7} {f3 : BitVec 3} {p : InstrWord} {h : Handler} {mk : RFields → Instr}
    (hon : ∀ w, h.on w = mk (fieldsOf w)) (hp : wordOfFields f7 0 0 f3 0 = p)
    (hfound : findHandler .exact p = some h) : EncodedAs f7 f3 p mk := by
  have hdecode : ∀ w : InstrWord, w &&& 0xFE00707F = p → decode .exact w = .ok (mk (fieldsOf w)) :=
    fun w hw => hon w ▸ decode_of_pattern hfound hw
  refine ⟨fun rs2 rs1 rd => ?layout, hdecode⟩
  case layout =>
    have hw : wordOfFields f7 rs2 rs1 f3 rd &&& 0xFE00707F = p := by
      rw [← hp, wordOfFields_eq_encodeFields, encodeFields_and_exactMask, wordOfFields_eq_encodeFields]
    refine ⟨hw, ?_⟩
    rw [hdecode _ hw, wordOfFields_eq_encodeFields, fieldsOf_encodeFields]

/-- The general-mode clause of a shadowed instruction: the general table has another handler for its pattern, which
requires another funct7 than the pattern's (R66). -/
theorem shadowedInGeneralMode_of_pattern {p : InstrWord} {h : Handler} {mk : RFields → Instr}
    (hon : ∀ w, h.on w = mk (fieldsOf w)) (hfound : findHandler .general p = some h)
    (hfunct7 : funct7 p ≠ (h.on p).requiredFunct7) : ShadowedInGeneralMode p mk := by
  intro w hw
  rw [← hon]
  refine ⟨decode_of_pattern hfound hw, exec_of_not_wf ?_⟩
  obtain ⟨-, h7, -, -⟩ := (and_exactMask_eq_iff w p).1 hw
  rw [← Bool.not_eq_true, Instr.wf_iff, Handler.on_fields, h.requiredFunct7_on w p]
  simpa only [fieldsOf, h7] using hfunct7

/-- The execution clause of an instruction: what it computes stands in the relation to its sources (R84 to R86). -/
theorem computesTo_of_resultOf {mk : RFields → Instr} {required : BitVec 7} {result : Word → Word → Word → Prop}
    (hfields : ∀ f, (mk f).fields = f) (hrequired : ∀ f, (mk f).requiredFunct7 = required)
    (hresult : ∀ f a b, result a b (resultOf (mk f) a b)) : ComputesTo mk required result := by
  intro f s
  have hwf : (mk f).wf = true ↔ f.funct7 = required := by rw [Instr.wf_iff, hfields, hrequired]
  refine ⟨fun hfail => ?fails, fun hpass => ?passes⟩
  case fails => exact exec_of_not_wf (by rwa [← Bool.not_eq_true, hwf]) s
  case passes =>
    have hexec := exec_of_wf (hwf.2 hpass) s
    rw [hfields] at hexec
    exact ⟨_, _, hexec, wroteOnly_writeReg s _ _, hresult f _ _⟩

end Machine

end Sys2Proof
end

section
/-! ADD and SUB: truncation to 64 bits takes integer sums and differences to those of words, and both readings of a word
truncate to the word, so the result does not depend on how the operands are read (R100, R101, spec/41_arithmetic.md). -/

namespace Sys2Proof.Machine

/-- Truncation is the remainder modulo 2^64 (R6). -/
theorem toNat_trunc64 (k : Int) : ((trunc64 k).toNat : Int) = k % 2 ^ 64 := by
  rw [trunc64, BitVec.toNat_ofInt]
  exact Int.toNat_of_nonneg (Int.emod_nonneg k (by decide))

theorem trunc64_add (k l : Int) : trunc64 (k + l) = trunc64 k + trunc64 l := BitVec.ofInt_add ..

theorem trunc64_sub (k l : Int) : trunc64 (k - l) = trunc64 k - trunc64 l := by
  simp only [trunc64, Int.sub_eq_add_neg, BitVec.ofInt_add, BitVec.ofInt_neg, BitVec.sub_eq_add_neg]

/-- A word is the truncation of its unsigned reading. -/
@[simp] theorem trunc64_toNat (a : Word) : trunc64 (a.toNat : Int) = a := by
  rw [trunc64, BitVec.ofInt_natCast, BitVec.ofNat_toNat, BitVec.setWidth_eq]

/-- A word is the truncation of its signed reading. -/
@[simp] theorem trunc64_toInt (a : Word) : trunc64 a.toInt = a := BitVec.ofInt_toInt

/-- ADD computes the sum of the words (R100). -/
theorem resultOf_add (f : RFields) (a b : Word) : resultOf (.add f) a b = a + b := by
  rw [resultOf, trunc64_add, trunc64_toNat, trunc64_toNat]

/-- SUB computes the difference of the words, first source minus second (R101). -/
theorem resultOf_sub (f : RFields) (a b : Word) : resultOf (.sub f) a b = a - b := by
  rw [resultOf, trunc64_sub, trunc64_toNat, trunc64_toNat]

/-- Settles O11: ADD computes the sum of the words, and truncation takes the sum of the signed readings to it. -/
theorem addIsWrappingSum : Obligations.AddIsWrappingSum := by
  refine ⟨encodedAs_of_pattern (h := .add) (fun _ => rfl) (by decide) (by decide),
    computesTo_of_resultOf (fun _ => rfl) (fun _ => rfl) fun f a b => ?result⟩
  case result =>
    have hsigned : trunc64 (a.toInt + b.toInt) = a + b := by rw [trunc64_add, trunc64_toInt, trunc64_toInt]
    rw [resultOf_add]
    exact ⟨BitVec.toNat_add a b, hsigned.symm⟩

/-- Settles O12: SUB computes the difference of the words, and truncation takes the difference of the signed readings to
it; the general table has ADD for the pattern, whose funct7 test fails. -/
theorem subIsWrappingDifference : Obligations.SubIsWrappingDifference := by
  refine ⟨encodedAs_of_pattern (h := .sub) (fun _ => rfl) (by decide) (by decide),
    shadowedInGeneralMode_of_pattern (h := .add) (fun _ => rfl) (by decide) (by decide),
    computesTo_of_resultOf (fun _ => rfl) (fun _ => rfl) fun f a b => ⟨toNat_trunc64 _, ?signed, ?complement⟩⟩
  case signed =>
    have hsigned : trunc64 (a.toInt - b.toInt) = a - b := by rw [trunc64_sub, trunc64_toInt, trunc64_toInt]
    exact (resultOf_sub f a b).trans hsigned.symm
  case complement =>
    rw [resultOf_sub, BitVec.sub_eq_add_neg, BitVec.neg_eq_not_add, BitVec.add_assoc]
    rfl

end Sys2Proof.Machine
end

section
/-! SLT and SLTU: each computes the flag of its order on the two sources as a word, 1 or 0, and where one source is not
below the other the other is at most it (R110, R111, spec/42_compare.md). -/

namespace Sys2Proof.Machine

/-- The flag of a proposition is 1 where it holds and 0 where it does not. -/
theorem flagWord_decide (p : Prop) [Decidable p] : flagWord (decide p) = if p then 1 else 0 := by
  simp only [flagWord, decide_eq_true_eq]

/-- SLT computes the flag of the signed order, first source below second (R110). -/
theorem resultOf_slt (f : RFields) (a b : Word) : resultOf (.slt f) a b = if a.toInt < b.toInt then 1 else 0 :=
  flagWord_decide _

/-- SLTU computes the flag of the unsigned order, first source below second (R111). -/
theorem resultOf_sltu (f : RFields) (a b : Word) : resultOf (.sltu f) a b = if a.toNat < b.toNat then 1 else 0 :=
  flagWord_decide _

/-- Settles O13: SLT computes the flag of the signed order, and equal sources are on its 0 side. -/
theorem sltComparesSigned : Obligations.SltComparesSigned := by
  refine ⟨encodedAs_of_pattern (h := .slt) (fun _ => rfl) (by decide) (by decide),
    computesTo_of_resultOf (fun _ => rfl) (fun _ => rfl) fun f a b => ?result⟩
  case result =>
    rw [resultOf_slt]
    exact ⟨fun hlt => if_pos hlt, fun hle => if_neg (Int.not_lt.2 hle)⟩

/-- Settles O14: SLTU computes the flag of the unsigned order, and equal sources are on its 0 side. -/
theorem sltuComparesUnsigned : Obligations.SltuComparesUnsigned := by
  refine ⟨encodedAs_of_pattern (h := .sltu) (fun _ => rfl) (by decide) (by decide),
    computesTo_of_resultOf (fun _ => rfl) (fun _ => rfl) fun f a b => ?result⟩
  case result =>
    rw [resultOf_sltu]
    exact ⟨fun hlt => if_pos hlt, fun hle => if_neg (Nat.not_lt.2 hle)⟩

end Sys2Proof.Machine
end

section
/-! AND, OR and XOR: a bit of the result is the operation's Boolean function of the sources' bits in the same place (R120,
R121, R122, spec/43_logical.md). -/

namespace Sys2Proof.Machine

/-- AND computes bit by bit the conjunction (R120). -/
theorem getLsbD_resultOf_and (f : RFields) (a b : Word) (i : Nat) :
    (resultOf (.and f) a b).getLsbD i = (a.getLsbD i && b.getLsbD i) := BitVec.getLsbD_and

/-- OR computes bit by bit the inclusive disjunction (R121). -/
theorem getLsbD_resultOf_or (f : RFields) (a b : Word) (i : Nat) :
    (resultOf (.or f) a b).getLsbD i = (a.getLsbD i || b.getLsbD i) := BitVec.getLsbD_or

/-- XOR computes bit by bit the exclusive disjunction (R122). -/
theorem getLsbD_resultOf_xor (f : RFields) (a b : Word) (i : Nat) :
    (resultOf (.xor f) a b).getLsbD i = (a.getLsbD i ^^ b.getLsbD i) := BitVec.getLsbD_xor

/-- Settles O16: the word AND computes is the conjunction in every bit. -/
theorem andIsBitwise : Obligations.AndIsBitwise := by
  refine ⟨encodedAs_of_pattern (h := .and) (fun _ => rfl) (by decide) (by decide),
    computesTo_of_resultOf (fun _ => rfl) (fun _ => rfl) fun f a b => ?result⟩
  case result => exact fun i _ => getLsbD_resultOf_and f a b i

/-- Settles O17: the word OR computes is the inclusive disjunction in every bit. -/
theorem orIsBitwise : Obligations.OrIsBitwise := by
  refine ⟨encodedAs_of_pattern (h := .or) (fun _ => rfl) (by decide) (by decide),
    computesTo_of_resultOf (fun _ => rfl) (fun _ => rfl) fun f a b => ?result⟩
  case result => exact fun i _ => getLsbD_resultOf_or f a b i

/-- Settles O18: the word XOR computes is the exclusive disjunction in every bit, which holds exactly of bits that
differ. -/
theorem xorIsBitwise : Obligations.XorIsBitwise := by
  refine ⟨encodedAs_of_pattern (h := .xor) (fun _ => rfl) (by decide) (by decide),
    computesTo_of_resultOf (fun _ => rfl) (fun _ => rfl) fun f a b => ?result⟩
  case result =>
    intro i _
    rw [getLsbD_resultOf_xor]
    exact Bool.xor_iff_ne

end Sys2Proof.Machine
end

section
/-! SLL, SRL and SRA: the integer formula of each is the shift of words by the amount, so the two readings the rules give,
the arithmetic one and the bitwise one, are those of that shift; and the amount is all of the second source that the
result depends on (R130 to R133, spec/44_shift.md). -/

namespace Sys2Proof.Machine

/-- The amount is the second source under the mask of its low six bits (R133). -/
theorem shiftAmount_eq_and (b : Word) : shiftAmount b = (b &&& 0x3F).toNat := by
  rw [shiftAmount, BitVec.extractLsb'_toNat, BitVec.toNat_and]
  exact (Nat.and_two_pow_sub_one_eq_mod b.toNat 6).symm

/-- No shift moves by the width or more (R133). -/
theorem shiftAmount_le (b : Word) : shiftAmount b ≤ 63 := Nat.le_of_lt_succ (b.extractLsb' 0 6).isLt

/-- SLL computes the left shift of words: shifting a word truncates the product (R130). -/
theorem resultOf_sll (f : RFields) (a b : Word) : resultOf (.sll f) a b = a <<< shiftAmount b := by
  refine BitVec.eq_of_toNat_eq (Int.ofNat_inj.1 ?_)
  rw [resultOf, toNat_trunc64, BitVec.toNat_shiftLeft, Nat.shiftLeft_eq]
  norm_cast

/-- The quotient by a power of 2, rounded down, is the right shift of the integer (R131, R132). -/
theorem fdiv_two_pow (k : Int) (n : Nat) : k.fdiv (2 ^ n : Nat) = k >>> n := by
  rw [Int.fdiv_eq_ediv_of_nonneg _ (Int.natCast_nonneg _), Int.shiftRight_eq_div_pow]

/-- SRL computes the logical right shift of words: the quotient of an unsigned reading needs no truncation (R131). -/
theorem resultOf_srl (f : RFields) (a b : Word) : resultOf (.srl f) a b = a >>> shiftAmount b := by
  rw [resultOf, fdiv_two_pow, ← Int.natCast_shiftRight, ← BitVec.toNat_ushiftRight, trunc64_toNat]

/-- SRA computes the arithmetic right shift of words (R132). -/
theorem resultOf_sra (f : RFields) (a b : Word) : resultOf (.sra f) a b = a.sshiftRight (shiftAmount b) := by
  rw [resultOf, fdiv_two_pow, trunc64, BitVec.sshiftRight]

/-- The place an amount higher is inside the word exactly up to place 63 less the amount. -/
theorem add_lt_width_iff {n i : Nat} (hn : n ≤ 63) : n + i < 64 ↔ i ≤ 63 - n := by omega

/-- Settles O19: SLL computes the left shift of words, whose unsigned reading is the product modulo 2^64 and whose bits
come from the places an amount lower. -/
theorem sllShiftsLeft : Obligations.SllShiftsLeft := by
  refine ⟨encodedAs_of_pattern (h := .sll) (fun _ => rfl) (by decide) (by decide),
    computesTo_of_resultOf (fun _ => rfl) (fun _ => rfl) fun f a b => ?result⟩
  case result =>
    rw [resultOf_sll, ← shiftAmount]
    refine ⟨?product, fun i hi => ?bits⟩
    case product => rw [BitVec.toNat_shiftLeft, Nat.shiftLeft_eq]
    case bits =>
      rw [BitVec.getLsbD_shiftLeft]
      by_cases hle : shiftAmount b ≤ i
      · simp [hi, hle]
      · simp [hle, Nat.not_le.1 hle]

/-- Settles O20: SRL computes the logical right shift of words, whose unsigned reading is the quotient and whose bits come
from the places an amount higher, zero past bit 63; the general table has SRL for the pattern of SRA too, whose
funct7 test fails. -/
theorem srlShiftsRightLogically : Obligations.SrlShiftsRightLogically := by
  refine ⟨encodedAs_of_pattern (h := .srl) (fun _ => rfl) (by decide) (by decide),
    shadowedInGeneralMode_of_pattern (h := .srl) (fun _ => rfl) (by decide) (by decide),
    computesTo_of_resultOf (fun _ => rfl) (fun _ => rfl) fun f a b => ?result⟩
  case result =>
    rw [resultOf_srl, ← shiftAmount]
    refine ⟨?quotient, fun i _ => ?bits⟩
    case quotient => rw [BitVec.toNat_ushiftRight, Nat.shiftRight_eq_div_pow]
    case bits =>
      rw [BitVec.getLsbD_ushiftRight, Nat.add_comm i]
      split
      case isTrue => rfl
      case isFalse hpast =>
        rw [← add_lt_width_iff (shiftAmount_le b)] at hpast
        exact BitVec.getLsbD_of_ge a _ (Nat.not_lt.1 hpast)

/-- Settles O21: SRA computes the arithmetic right shift of words, whose signed reading is the quotient rounded down and
whose bits come from the places an amount higher, the top bit past bit 63; with top bit 0 that is the logical shift. -/
theorem sraShiftsRightArithmetically : Obligations.SraShiftsRightArithmetically := by
  refine ⟨encodedAs_of_pattern (h := .sra) (fun _ => rfl) (by decide) (by decide),
    shadowedInGeneralMode_of_pattern (h := .srl) (fun _ => rfl) (by decide) (by decide),
    computesTo_of_resultOf (fun _ => rfl) (fun _ => rfl) fun f a b => ?result⟩
  case result =>
    rw [resultOf_sra, ← shiftAmount]
    refine ⟨?quotient, fun i hi => ?bits, fun htop => ?logical⟩
    case quotient =>
      rw [BitVec.toInt_sshiftRight, ← fdiv_two_pow, Nat.cast_pow, Nat.cast_ofNat]
    case bits =>
      simp only [BitVec.getLsbD_sshiftRight, add_lt_width_iff (shiftAmount_le b), BitVec.msb_eq_getLsbD_last,
        Nat.not_le.2 hi, Nat.add_comm i, decide_false, Bool.not_false, Bool.true_and]
    case logical =>
      have hmsb : a.msb = false := by rw [BitVec.msb_eq_getLsbD_last, htop]
      rw [BitVec.sshiftRight_eq_of_msb_false hmsb, BitVec.toNat_ushiftRight, Nat.shiftRight_eq_div_pow]

/-- Each shift is a function of the first source and the amount alone, and shifting by 0 gives the first source back
(R133). -/
theorem resultOf_shift {f : RFields} {i : Instr} (hi : i = .sll f ∨ i = .srl f ∨ i = .sra f) :
    ∃ shift : Word → Nat → Word, (∀ a, shift a 0 = a) ∧ ∀ a b, resultOf i a b = shift a (shiftAmount b) := by
  rcases hi with rfl | rfl | rfl
  · exact ⟨(· <<< ·), fun a => BitVec.shiftLeft_zero a, resultOf_sll f⟩
  · exact ⟨(· >>> ·), fun a => BitVec.ushiftRight_zero a, resultOf_srl f⟩
  · exact ⟨BitVec.sshiftRight, fun _ => BitVec.sshiftRight_zero, resultOf_sra f⟩

/-- What the register written reads as depends on the value written only, x0 included (R12). -/
theorem State.readReg_writeReg_self (s : State) (d : Reg) (v : Word) :
    (s.writeReg d v).readReg d = if d = 0 then 0 else v := by
  split
  case isTrue hd => rw [hd, State.readReg_zero]
  case isFalse hd => exact State.readReg_writeReg_same s hd v

/-- Settles O22: every shift is a function of the first source and the amount, and the amount is that of the second source
under the mask. -/
theorem shiftAmountIsLowSixBits : Obligations.ShiftAmountIsLowSixBits := by
  refine ⟨fun b => ⟨shiftAmount_eq_and b, shiftAmount_le b⟩, fun f i hi hwf => ?shifts⟩
  case shifts =>
    obtain ⟨shift, hzero, hresult⟩ := resultOf_shift hi
    have hfields : i.fields = f := by rcases hi with rfl | rfl | rfl <;> rfl
    have hexec : ∀ s : State, exec i s =
        .next (s.writeReg f.rd (shift (s.readReg f.rs1) (shiftAmount (s.readReg f.rs2)))) := fun s => by
      rw [exec_of_wf hwf, hfields, hresult]
    refine ⟨fun s u h1 h2 => ⟨_, _, hexec s, hexec u, ?sameValue⟩, fun s hamount => ⟨_, hexec s, ?unchanged⟩⟩
    case sameValue =>
      rw [State.readReg_writeReg_self, State.readReg_writeReg_self, h1, shiftAmount_eq_and, h2, ← shiftAmount_eq_and]
    case unchanged =>
      have hmask : s.readReg f.rs2 &&& 0x3F = 0 := by
        rcases hamount with hlow | hrs2
        · exact hlow
        · rw [hrs2, State.readReg_zero]
          exact BitVec.zero_and
      have hshift : shift (s.readReg f.rs1) (shiftAmount (s.readReg f.rs2)) = s.readReg f.rs1 := by
        rw [shiftAmount_eq_and, hmask]
        exact hzero _
      rw [hshift]
      exact wroteOnly_writeReg s f.rd _

end Sys2Proof.Machine
end

section
/-! The step, stage by stage: a fault of fetch ends it, then a rejected word, and a decoded instruction leaves it to the
funct7 test (R90, R147, spec/60_exceptions.md). -/

namespace Sys2Proof.Machine

variable {m : DecodeMode} {s : State} {w : InstrWord} {n : Nat}

/-- The step reports a fault of its fetch (R91). -/
theorem stepIn_of_fetch_fault {r : Fault} (hf : fetch s = .fault r) : stepIn m s = .fault r := by
  rw [stepIn, hf, andThen_fault]

/-- The step reports a fetched word that no entry of the table matches (R143). -/
theorem stepIn_of_rejected (hf : fetch s = .next (w, n)) (hd : decode m w = .error .unsupported) :
    stepIn m s = .fault .unsupported := by
  simp [stepIn, hf, decodeOrFault, hd, raise]

/-- Past decode the step is execute and the advance of pc (R90). -/
theorem stepIn_of_decoded {i : Instr} (hf : fetch s = .next (w, n)) (hd : decode m w = .ok i) :
    stepIn m s = andThen (exec i s) fun t => .next (t.advancePc n) := by
  simp only [stepIn, hf, andThen_next, decodeOrFault_next.2 hd]

/-- Settles O26: fetch, decode and execute each end the step with their own fault or hand it on, and fetch, load and store
resolve their window by containment before permission. -/
theorem faultsAreFoundInPipelineOrder : Obligations.FaultsAreFoundInPipelineOrder := by
  refine ⟨fun m s => ⟨fun hnone => ?unmapped, fun g hg => ⟨fun hp => ?denied, fun hr hx =>
      ⟨_, fetch_of_allowed hg hr hx, fun hd => ?rejected, fun i hd => ⟨fun hfail => ?fails, fun hpass => ?passes⟩⟩⟩⟩,
    fun s a v bits n hn => ⟨fun hnone => ?dataUnmapped, fun g hg =>
      ⟨fun hr => ?loadDenied, fun hw => ?storeDenied, fun hr => ?loads, fun hw => ?stores⟩⟩⟩
  case unmapped => exact stepIn_of_fetch_fault (fetch_fault.2 (resolve_unmapped.2 (findContaining_none.1 hnone)))
  case denied => exact stepIn_of_fetch_fault (fetch_of_denied hg hp)
  case rejected => exact stepIn_of_rejected (fetch_of_allowed hg hr hx) hd
  case fails =>
    have hwf : i.wf = false := by rwa [← Bool.not_eq_true, Instr.wf_iff]
    rw [stepIn_of_decoded (fetch_of_allowed hg hr hx) hd, exec_of_not_wf hwf, andThen_fault]
  case passes =>
    rw [stepIn_of_decoded (fetch_of_allowed hg hr hx) hd, exec_of_wf ((Instr.wf_iff i).2 hpass), andThen_next]
    exact ⟨_, rfl⟩
  case dataUnmapped =>
    have hcontains := findContaining_none.1 hnone
    exact ⟨(load_fault hn).2 (resolve_unmapped.2 hcontains), (store_fault hn).2 (resolve_unmapped.2 hcontains)⟩
  case loadDenied => exact (load_fault hn).2 (resolve_of_denied hg hr)
  case storeDenied => exact (store_fault hn).2 (resolve_of_denied hg hw)
  case loads => exact ⟨_, load_next.2 ⟨n, g, hn, hg, hr, rfl⟩⟩
  case stores => exact ⟨_, store_next.2 ⟨n, g, hn, hg, hw, rfl⟩⟩

end Sys2Proof.Machine
end

section
/-! The two decode tables as functions of a word's funct7, funct3 and opcode: exact mode finds the handler whose operation
has all three, general mode the one that has the last two and requires funct7 0 (R64 to R67, R82,
spec/30_encoding.md). -/

namespace Sys2Proof

/-- The handler an instruction is an application of (R83). -/
def Instr.handler : Instr → Handler
  | .add _ => .add
  | .sub _ => .sub
  | .sll _ => .sll
  | .slt _ => .slt
  | .sltu _ => .sltu
  | .xor _ => .xor
  | .srl _ => .srl
  | .sra _ => .sra
  | .or _ => .or
  | .and _ => .and

/-- An instruction is its handler on any word with its fields (R84). -/
theorem Instr.handler_on (i : Instr) {w : InstrWord} (hw : fieldsOf w = i.fields) : i.handler.on w = i := by
  cases i <;> exact congrArg _ hw

/-- What a handler's operation can require: funct7 0, or 0x20 for the two operations that have a variant (R64). -/
theorem Handler.requiredFunct7_cases (h : Handler) (w : InstrWord) :
    (h.on w).requiredFunct7 = 0x00 ∨
    ((h.on w).requiredFunct7 = 0x20 ∧ ((h.on w).funct3 = 0b000 ∨ (h.on w).funct3 = 0b101)) := by
  cases h <;> simp [Handler.on, Instr.requiredFunct7, Instr.funct3]

/-! ## Rejection -/

/-- decode rejects a word exactly when the table has no handler for it (R65, R67). -/
theorem decode_unsupported_iff {m : DecodeMode} {w : InstrWord} :
    decode m w = .error .unsupported ↔ findHandler m w = none := by
  unfold decode
  cases findHandler m w <;> simp

/-- No handler is found exactly when no entry hits (R65). -/
theorem findHandler_none {m : DecodeMode} {w : InstrWord} :
    findHandler m w = none ↔ ∀ r ∈ decodeTable m, r.hits w = false := by
  rw [← decode_unsupported_iff, decode_error]

/-! ## Exact mode -/

theorem DecodeRow.hits_iff (r : DecodeRow) (w : InstrWord) : r.hits w = true ↔ w &&& r.mask = r.pattern := by
  simp [DecodeRow.hits]

/-- Every pattern of the exact table lies under the exact mask. -/
theorem exactTable_pattern : ∀ r ∈ exactTable, r.pattern &&& 0xFE00707F = r.pattern := by decide

/-- An entry of the exact table hits the words that have its operation's funct7, funct3 and opcode (R64, R65). -/
theorem exactTable_hits_iff {r : DecodeRow} (hr : r ∈ exactTable) (w : InstrWord) :
    r.hits w = true ↔ funct7 w = (r.handler.on w).requiredFunct7 ∧ funct3 w = (r.handler.on w).funct3 ∧
      opcode w = opcodeOP := by
  obtain ⟨hmask, h7, h3, hop⟩ := exactTable_row r hr
  rw [DecodeRow.hits_iff, hmask, and_exactMask_eq_iff, h7, h3, hop, r.handler.requiredFunct7_on w 0,
    r.handler.funct3_on w 0]
  exact and_iff_right (exactTable_pattern r hr)

/-- At most one entry of the exact table hits a word (R65). -/
theorem exactTable_hits_unique {r q : DecodeRow} (hr : r ∈ exactTable) (hq : q ∈ exactTable) {w : InstrWord}
    (hrw : r.hits w = true) (hqw : q.hits w = true) : q = r := by
  rw [DecodeRow.hits_iff, (exactTable_row r hr).1] at hrw
  rw [DecodeRow.hits_iff, (exactTable_row q hq).1] at hqw
  exact exactTable_pattern_inj r hr q hq (hqw.symm.trans hrw)

/-- The entry that hits a word is the one findHandler answers (R65). -/
theorem findHandler_exact_of_hits {r : DecodeRow} (hr : r ∈ exactTable) {w : InstrWord} (hrw : r.hits w = true) :
    findHandler .exact w = some r.handler := by
  cases hfound : findHandler .exact w with
  | none => exact absurd hrw (by simp [findHandler_none.1 hfound r hr])
  | some h =>
    obtain ⟨q, hq, hqw, rfl⟩ := findHandler_some hfound
    rw [exactTable_hits_unique hr hq hrw hqw]

/-- Every handler stands in the exact table (R65). -/
theorem exactTable_has_handler (h : Handler) : ∃ r ∈ exactTable, r.handler = h := by
  cases h <;> decide

/-- Exact mode finds the handler whose operation has the word's funct7, funct3 and opcode (R64, R65). -/
theorem findHandler_exact_iff {w : InstrWord} {h : Handler} :
    findHandler .exact w = some h ↔
      funct7 w = (h.on w).requiredFunct7 ∧ funct3 w = (h.on w).funct3 ∧ opcode w = opcodeOP := by
  constructor
  · intro hfound
    obtain ⟨r, hr, hrw, rfl⟩ := findHandler_some hfound
    exact (exactTable_hits_iff hr w).1 hrw
  · intro hfields
    obtain ⟨r, hr, rfl⟩ := exactTable_has_handler h
    exact findHandler_exact_of_hits hr ((exactTable_hits_iff hr w).2 hfields)

/-! ## General mode -/

/-- Each value of funct3 with opcode 0x33 has a handler in the general table, with that funct3 and requiring funct7 0
(R66). -/
theorem generalTable_has_funct3 : ∀ f3 : BitVec 3,
    (findHandler .general (encodeFields { funct7 := 0, rs2 := 0, rs1 := 0, rd := 0 } f3 opcodeOP)).map
      (fun h => ((h.on 0).funct3, (h.on 0).requiredFunct7)) = some (f3, 0x00) := by decide

/-- General mode looks at funct3 and opcode only (R66). -/
theorem findHandler_general_and_mask (w : InstrWord) :
    findHandler .general w = findHandler .general (w &&& 0x0000707F) := by
  refine findHandler_congr fun r hr => ?_
  rw [DecodeRow.hits, DecodeRow.hits, (generalTable_row r hr).1, BitVec.and_assoc, BitVec.and_self]

/-- General mode has a handler for every word of opcode 0x33 (R66). -/
theorem exists_findHandler_general {w : InstrWord} (hop : opcode w = opcodeOP) :
    ∃ h, findHandler .general w = some h ∧ (h.on w).funct3 = funct3 w ∧ (h.on w).requiredFunct7 = 0x00 := by
  obtain ⟨h, hfound, hfields⟩ := Option.map_eq_some_iff.1 (generalTable_has_funct3 (funct3 w))
  rw [Prod.mk.injEq] at hfields
  refine ⟨h, ?_, (h.funct3_on w 0).trans hfields.1, (h.requiredFunct7_on w 0).trans hfields.2⟩
  rw [findHandler_general_and_mask, and_generalMask, hop, hfound]

/-- What general mode finds has the word's funct3 and opcode and requires funct7 0 (R66). -/
theorem findHandler_general_some {w : InstrWord} {h : Handler} (hfound : findHandler .general w = some h) :
    (h.on w).requiredFunct7 = 0x00 ∧ funct3 w = (h.on w).funct3 ∧ opcode w = opcodeOP := by
  obtain ⟨r, hr, hrw, -⟩ := findHandler_some hfound
  obtain ⟨hmask, -, hrop⟩ := generalTable_row r hr
  rw [DecodeRow.hits_iff, hmask, and_generalMask_eq_iff, hrop] at hrw
  obtain ⟨-, -, hop⟩ := hrw
  obtain ⟨k, hk, h3, h7⟩ := exists_findHandler_general hop
  obtain rfl : k = h := Option.some.inj (hk.symm.trans hfound)
  exact ⟨h7, h3.symm, hop⟩

/-! ## Both modes -/

/-- In either mode the handler found has the word's funct3 and opcode (R65, R66). -/
theorem findHandler_fields {m : DecodeMode} {w : InstrWord} {h : Handler} (hfound : findHandler m w = some h) :
    (h.on w).funct3 = funct3 w ∧ opcode w = opcodeOP := by
  cases m with
  | exact =>
    obtain ⟨-, h3, hop⟩ := findHandler_exact_iff.1 hfound
    exact ⟨h3.symm, hop⟩
  | general =>
    obtain ⟨-, h3, hop⟩ := findHandler_general_some hfound
    exact ⟨h3.symm, hop⟩

/-- On words with funct7 0 the modes find the same (R66). -/
theorem findHandler_general_of_funct7_zero {w : InstrWord} (h7 : funct7 w = 0x00) :
    findHandler .general w = findHandler .exact w := by
  by_cases hop : opcode w = opcodeOP
  · obtain ⟨h, hfound, h3, hreq⟩ := exists_findHandler_general hop
    rw [hfound, findHandler_exact_iff.2 ⟨h7.trans hreq.symm, h3.symm, hop⟩]
  · have hnone : ∀ m, findHandler m w = none := fun m =>
      Option.eq_none_iff_forall_ne_some.2 fun h hfound => hop (findHandler_fields hfound).2
    rw [hnone, hnone]

/-- The words that have a handler in exact mode are those of the opcode map (R67). -/
theorem exists_findHandler_exact_iff {w : InstrWord} :
    (∃ h, findHandler .exact w = some h) ↔
      opcode w = opcodeOP ∧ (funct7 w = 0x00 ∨ (funct7 w = 0x20 ∧ (funct3 w = 0b000 ∨ funct3 w = 0b101))) := by
  constructor
  · rintro ⟨h, hfound⟩
    obtain ⟨h7, h3, hop⟩ := findHandler_exact_iff.1 hfound
    rw [h7, h3]
    exact ⟨hop, h.requiredFunct7_cases w⟩
  · rintro ⟨hop, h7 | ⟨h7, h3 | h3⟩⟩
    · obtain ⟨h, hfound, -⟩ := exists_findHandler_general hop
      exact ⟨h, findHandler_general_of_funct7_zero h7 ▸ hfound⟩
    · exact ⟨.sub, findHandler_exact_iff.2 ⟨h7, h3, hop⟩⟩
    · exact ⟨.sra, findHandler_exact_iff.2 ⟨h7, h3, hop⟩⟩

/-- Exact mode rejects exactly the words outside the opcode map (R67). -/
theorem decode_exact_unsupported_iff {w : InstrWord} :
    decode .exact w = .error .unsupported ↔
      ¬ (opcode w = 0x33 ∧ (funct7 w = 0x00 ∨ (funct7 w = 0x20 ∧ (funct3 w = 0b000 ∨ funct3 w = 0b101)))) := by
  rw [decode_unsupported_iff, Option.eq_none_iff_forall_ne_some, ← not_exists]
  exact not_congr exists_findHandler_exact_iff

/-- A word of another opcode is rejected in either mode (R66, R67). -/
theorem decode_of_opcode_ne {m : DecodeMode} {w : InstrWord} (hop : opcode w ≠ 0x33) :
    decode m w = .error .unsupported :=
  decode_unsupported_iff.2
    (Option.eq_none_iff_forall_ne_some.2 fun _ hfound => hop (findHandler_fields hfound).2)

/-- What exact mode decodes passes the funct7 test (R65). -/
theorem wf_of_decode_exact {w : InstrWord} {i : Instr} (hdecode : decode .exact w = .ok i) : i.wf = true := by
  obtain ⟨h, hfound, rfl⟩ := decode_ok.1 hdecode
  rw [Instr.wf_iff, h.on_fields]
  exact (findHandler_exact_iff.1 hfound).1

/-! ## The statements on decoding -/

/-- Settles O2: the handler found has the word's funct3 and opcode and takes the word's fields, which together are all of
the word; in exact mode it has the word's funct7 too. -/
theorem decodedWordIsTheEncoding : Obligations.DecodedWordIsTheEncoding := by
  intro m w i hdecode
  obtain ⟨h, hfound, rfl⟩ := decode_ok.1 hdecode
  obtain ⟨h3, hop⟩ := findHandler_fields hfound
  refine ⟨?word, h.on_fields w, ?wellFormed⟩
  case word => rw [encode, h.on_fields, h3, ← hop, encodeFields_fieldsOf]
  case wellFormed =>
    rintro rfl
    exact wf_of_decode_exact hdecode

/-- Exact mode decodes the encoding of a well-formed instruction to it (R64). -/
theorem decode_encode {i : Instr} (hi : i.wf = true) : decode .exact (encode i) = .ok i := by
  obtain ⟨hfields, h3, hop⟩ := Laws.encode_fields i
  have hon := i.handler_on hfields
  have h7 : funct7 (encode i) = i.requiredFunct7 :=
    (congrArg RFields.funct7 hfields).trans ((Instr.wf_iff i).1 hi)
  refine decode_ok.2 ⟨i.handler, findHandler_exact_iff.2 ?_, hon.symm⟩
  rw [hon]
  exact ⟨h7, h3, hop⟩

/-- Decoding four bytes in front of others decodes their word and leaves the others (R41, R60). -/
theorem decodeBytes_append {m : DecodeMode} {bs : List Byte} (hbs : bs.length = 4) (rest : List Byte) :
    decodeBytes m (bs ++ rest) = some (decode m (wordOfBytes bs), rest) := by
  obtain ⟨b0, b1, b2, b3, rfl⟩ := List.length_eq_four.1 hbs
  rfl

/-- Settles O1: the word keeps the fields, funct3 and opcode, by which exact mode finds the instruction's handler; and its
four bytes assemble to it again. -/
theorem decodeOfEncodeIsIdentity : Obligations.DecodeOfEncodeIsIdentity := by
  intro i hi
  refine ⟨decode_encode hi, fun rest => ?bytes⟩
  case bytes =>
    rw [encodeBytes, decodeBytes_append (length_leBytes ..), wordOfBytes_leBytes, decode_encode hi]

/-- Settles O3: an entry hits the words with its operation's funct7, funct3 and opcode, so at most one hits, its handler
is the one found and the funct7 test passes; its own pattern is a word it hits. -/
theorem exactDecodeTable : Obligations.ExactDecodeTable := by
  refine ⟨by decide, fun w r hr hrw => ?matched, fun w hnone => ?unmatched, fun h => ?reachable,
    fun w hop h7 hvariant => ?variant⟩
  case matched =>
    have hhits := (r.hits_iff w).2 hrw
    refine ⟨decode_ok.2 ⟨_, findHandler_exact_of_hits hr hhits, rfl⟩, ?_,
      fun q hq hqw => exactTable_hits_unique hr hq hhits ((q.hits_iff w).2 hqw)⟩
    rw [Handler.on_fields]
    exact ((exactTable_hits_iff hr w).1 hhits).1
  case unmatched =>
    refine decode_error.2 fun r hr => ?_
    rw [← Bool.not_eq_true, DecodeRow.hits_iff]
    exact hnone r hr
  case reachable =>
    obtain ⟨r, hr, rfl⟩ := exactTable_has_handler h
    have hpattern : r.hits r.pattern = true := by
      rw [DecodeRow.hits_iff, (exactTable_row r hr).1, exactTable_pattern r hr]
    exact ⟨r.pattern, decode_ok.2 ⟨_, findHandler_exact_of_hits hr hpattern, rfl⟩⟩
  case variant => exact decode_exact_unsupported_iff.2 fun hlegal => hlegal.2.elim h7 hvariant

/-- Settles O6: exact mode has a handler for the words of the opcode map only, and their opcode ends in 11. -/
theorem legalWordsAreTheOpcodeMap : Obligations.LegalWordsAreTheOpcodeMap := by
  refine ⟨fun w => decode_exact_unsupported_iff, fun m w i hdecode => ?lowBits⟩
  case lowBits =>
    obtain ⟨h, hfound, -⟩ := decode_ok.1 hdecode
    have hop : w.extractLsb' 0 7 = opcodeOP := (findHandler_fields hfound).2
    calc w.extractLsb' 0 2 = (w.extractLsb' 0 7).extractLsb' 0 2 := by
          rw [BitVec.extractLsb'_extractLsb'_of_le (by decide)]
      _ = 0b11 := by rw [hop]; decide

/-- Settles O7: both words find what their common part under the mask finds. -/
theorem decodeIgnoresRegisterFields : Obligations.DecodeIgnoresRegisterFields := by
  intro m v w hvw
  rw [findHandler_of_pattern m hvw, ← findHandler_of_pattern m rfl]

/-- Settles O8: each word is decoded by the table. -/
theorem wordsOfTheSpecDecode : Obligations.WordsOfTheSpecDecode := by
  unfold Obligations.WordsOfTheSpecDecode
  decide

end Sys2Proof
end

section
/-! Execute on decoded words and on any word: in general mode the funct7 test stands between a word and its operation, and
a handler called directly depends on the word through its fields only (R66, R84, R87,
spec/40_fetch_decode_execute.md). -/

namespace Sys2Proof.Machine

/-- A handler on a word runs exactly when the word's funct7 is the one it requires (R85). -/
theorem wf_on_iff (h : Handler) (w : InstrWord) : (h.on w).wf = true ↔ funct7 w = (h.on w).requiredFunct7 := by
  rw [Instr.wf_iff, Handler.on_fields]
  rfl

/-- A handler on a word with another funct7 than it requires fails the test (R85). -/
theorem exec_on_of_funct7_ne {h : Handler} {w : InstrWord} (h7 : funct7 w ≠ (h.on w).requiredFunct7) (s : State) :
    exec (h.on w) s = .fault .unsupportedVariant :=
  exec_of_not_wf (by rwa [← Bool.not_eq_true, wf_on_iff]) s

/-- Settles O4: general mode finds the handler of the word's funct3 that requires funct7 0, and finds none for another
opcode. -/
theorem generalModeDecodesByFunct3 : Obligations.GeneralModeDecodesByFunct3 := by
  intro w
  refine ⟨fun hop => ?decodes, decode_of_opcode_ne⟩
  case decodes =>
    obtain ⟨h, hfound, h3, hreq⟩ := exists_findHandler_general hop
    refine ⟨h.on w, decode_ok.2 ⟨h, hfound, rfl⟩, h.on_fields w, h3, hreq,
      fun s => ⟨fun h7 => ?passes, fun h7 => ?fails⟩⟩
    case passes => exact ⟨_, exec_of_wf ((wf_on_iff h w).2 (h7.trans hreq.symm)) s⟩
    case fails => exact exec_on_of_funct7_ne (hreq ▸ h7) s

/-- The bits of a word outside opcode and funct3 are those of its fields (R61, R62). -/
theorem encodeFields_and_fieldsMask (f : RFields) (f3 : BitVec 3) (op : BitVec 7) :
    encodeFields f f3 op &&& 0xFFFF8F80 = encodeFields f 0 0 := by
  apply BitVec.eq_of_getLsbD_eq
  intro i hi
  simp only [encodeFields, BitVec.getLsbD_and, BitVec.getLsbD_append]
  interval_cases i <;> simp

/-- Words that agree outside opcode and funct3 have the same fields (R62). -/
theorem fieldsOf_congr {v w : InstrWord} (hvw : v &&& 0xFFFF8F80 = w &&& 0xFFFF8F80) : fieldsOf v = fieldsOf w := by
  rw [← encodeFields_fieldsOf v, ← encodeFields_fieldsOf w, encodeFields_and_fieldsMask,
    encodeFields_and_fieldsMask] at hvw
  exact (encodeFields_inj hvw).1

/-- A handler takes the fields of its word and nothing else of it (R84, R87). -/
theorem handler_on_congr (h : Handler) {v w : InstrWord} (hvw : fieldsOf v = fieldsOf w) : h.on v = h.on w := by
  cases h <;> simp only [Handler.on, hvw]

/-- A direct call whose funct7 test passes leaves the result in rd (R84, R87). -/
theorem readReg_execute {h : Handler} {w : InstrWord} (h7 : funct7 w = (h.on w).requiredFunct7) (hrd : rd w ≠ 0)
    (s : State) : ∃ t, execute h w s = .next t ∧
      t.readReg (rd w) = resultOf (h.on w) (s.readReg (rs1 w)) (s.readReg (rs2 w)) := by
  refine ⟨_, exec_of_wf ((wf_on_iff h w).2 h7) s, ?_⟩
  rw [Handler.on_fields]
  exact State.readReg_writeReg_same s hrd _

/-- Settles O24: a handler sees the fields of its word only and checks funct7 of them; the five direct calls are
single cases of that, and decode answers the handler found on the word. -/
theorem handlerChecksFunct7Only : Obligations.HandlerChecksFunct7Only := by
  refine ⟨fun h v w s => ⟨fun h7 => exec_on_of_funct7_ne h7 s, fun h7 => ?passes, fun hvw => ?congruent⟩,
    fun s => ?addOnAdd, fun s => ?addOnSub, fun s => ?subOnAdd, fun s => ?subOnSub, fun s => ?xorOnAdd,
    fun m w i => decode_ok.1⟩
  case passes =>
    have hexec := exec_of_wf ((wf_on_iff h w).2 h7) s
    rw [Handler.on_fields] at hexec
    exact ⟨_, _, hexec, wroteOnly_writeReg s _ _⟩
  case congruent => rw [execute, execute, handler_on_congr h (fieldsOf_congr hvw)]
  case addOnAdd =>
    obtain ⟨t, hexec, hresult⟩ := readReg_execute (h := .add) (w := 0x00C58533) (by decide) (by decide) s
    exact ⟨t, hexec, hresult.trans (resultOf_add ..)⟩
  case addOnSub => exact exec_on_of_funct7_ne (h := .add) (by decide) s
  case subOnAdd => exact exec_on_of_funct7_ne (h := .sub) (by decide) s
  case subOnSub =>
    obtain ⟨t, hexec, hresult⟩ := readReg_execute (h := .sub) (w := 0x40C58533) (by decide) (by decide) s
    exact ⟨t, hexec, hresult.trans (resultOf_sub ..)⟩
  case xorOnAdd => exact readReg_execute (h := .xor) (w := 0x00C58533) (by decide) (by decide) s

/-! ## Signed and unsigned order (R112, spec/42_compare.md) -/

/-- Where the top bits are equal the signed order is the unsigned one (R112). -/
theorem toInt_lt_iff_of_msb_eq {a b : Word} (hab : a.msb = b.msb) : a.toInt < b.toInt ↔ a.toNat < b.toNat := by
  rw [BitVec.toInt_eq_msb_cond, BitVec.toInt_eq_msb_cond, hab]
  split <;> omega

/-- A word with the top bit set is below one without it as signed, and above it as unsigned (R112). -/
theorem order_of_msb {a b : Word} (ha : a.msb = true) (hb : b.msb = false) : a.toInt < b.toInt ∧ b.toNat < a.toNat :=
  ⟨(BitVec.toInt_neg_of_msb_true ha).trans_le (BitVec.toInt_nonneg_of_msb_false hb),
    (BitVec.toNat_lt_of_msb_false hb).trans_le (BitVec.le_toNat_of_msb_true ha)⟩

/-- SLT by the top bits, and SLT and SLTU agree exactly where these are equal (R112). -/
theorem resultOf_slt_of_topBits (f : RFields) (a b : Word) :
    (a.msb = true → b.msb = false → resultOf (.slt f) a b = 1) ∧
    (a.msb = false → b.msb = true → resultOf (.slt f) a b = 0) ∧
    (resultOf (.slt f) a b = resultOf (.sltu f) a b ↔ a.msb = b.msb) := by
  rw [resultOf_slt, resultOf_sltu]
  cases ha : a.msb <;> cases hb : b.msb
  case false.false => simp [toInt_lt_iff_of_msb_eq (ha.trans hb.symm)]
  case false.true =>
    obtain ⟨hs, hu⟩ := order_of_msb hb ha
    simp [hs.not_gt, hu]
  case true.false =>
    obtain ⟨hs, hu⟩ := order_of_msb ha hb
    simp [hs, hu.not_gt]
  case true.true => simp [toInt_lt_iff_of_msb_eq (ha.trans hb.symm)]

/-- Settles O15: both instructions pass and leave their flag in rd, where SLT and SLTU compare by the top bits. -/
theorem sltAndSltuAgreeOnEqualTopBits : Obligations.SltAndSltuAgreeOnEqualTopBits := by
  intro f s h7
  refine ⟨_, _, exec_of_wf (i := .slt f) ((Instr.wf_iff _).2 h7) s, exec_of_wf (i := .sltu f) ((Instr.wf_iff _).2 h7) s,
    fun hrd => ?discarded, fun hrd => ?flags⟩
  case discarded => rw [hrd]; exact ⟨State.readReg_zero _, State.readReg_zero _⟩
  case flags =>
    simp only [Instr.fields, State.readReg_writeReg_same _ hrd]
    exact resultOf_slt_of_topBits f (s.readReg f.rs1) (s.readReg f.rs2)

end Sys2Proof.Machine
end

section
/-! The step's outcomes and frame: the mode enters through decode alone, a success moves pc by 4 and writes one register,
and in exact mode the funct7 test always passes (R90 to R92, R144, spec/40_fetch_decode_execute.md). -/

namespace Sys2Proof.Machine

variable {m : DecodeMode} {s t : State} {w : InstrWord} {n : Nat}

/-! ## The decode mode -/

/-- Without a fetched word the mode does not matter (R90). -/
theorem stepIn_mode_of_no_word (hf : ∀ w, fetch s ≠ .next (w, 4)) (m m' : DecodeMode) :
    stepIn m s = stepIn m' s := by
  cases h : fetch s with
  | next p => exact absurd (fetch_size h ▸ h) (hf p.1)
  | fault r => rw [stepIn_of_fetch_fault h, stepIn_of_fetch_fault h]
  | refused r => rw [stepIn, stepIn, h, andThen_refused, andThen_refused]

/-- Modes that find the same handler for the fetched word step alike (R82, R90). -/
theorem stepIn_mode_of_findHandler {m m' : DecodeMode} (hf : fetch s = .next (w, n))
    (hfound : findHandler m w = findHandler m' w) : stepIn m s = stepIn m' s := by
  simp only [stepIn, hf, andThen_next, decodeOrFault, decode, hfound]

/-- A decoded word whose funct7 is not the required value ends the step with UnsupportedVariant (R144). -/
theorem stepIn_of_not_wf {i : Instr} (hf : fetch s = .next (w, n)) (hd : decode m w = .ok i) (hi : i.wf = false) :
    stepIn m s = .fault .unsupportedVariant := by
  rw [stepIn_of_decoded hf hd, exec_of_not_wf hi, andThen_fault]

/-- A decoded word whose funct7 is the required value lets the step succeed (R90). -/
theorem stepIn_of_wf {i : Instr} (hf : fetch s = .next (w, n)) (hd : decode m w = .ok i) (hi : i.wf = true) :
    ∃ t, exec i s = .next t ∧ t.pc = s.pc ∧ stepIn m s = .next (t.advancePc n) := by
  refine ⟨_, exec_of_wf hi s, State.writeReg_pc .., ?_⟩
  rw [stepIn_of_decoded hf hd, exec_of_wf hi, andThen_next]

/-- In general mode a word of opcode 0x33 with a funct7 other than 0 is UnsupportedVariant (R66). -/
theorem stepIn_general_of_funct7_ne (hf : fetch s = .next (w, n)) (hop : opcode w = 0x33) (h7 : funct7 w ≠ 0x00) :
    stepIn .general s = .fault .unsupportedVariant := by
  obtain ⟨h, hfound, -, hreq⟩ := exists_findHandler_general hop
  refine stepIn_of_not_wf hf (decode_ok.2 ⟨h, hfound, rfl⟩) ?_
  rw [← Bool.not_eq_true, wf_on_iff, hreq]
  exact h7

/-- Settles O5: the modes differ where general mode finds a handler whose funct7 test then fails: exact mode finds sub or
sra there, or none. -/
theorem decodeModesDifferOnlyOnVariants : Obligations.DecodeModesDifferOnlyOnVariants := by
  refine ⟨fun s hf => stepIn_mode_of_no_word hf _ _,
    fun s w hf => ⟨?same, fun hop h7 h3 => ?variant, fun hop h7 hillegal => ?illegal⟩⟩
  case same =>
    rintro (hop | h7)
    · rw [stepIn_of_rejected hf (decode_of_opcode_ne hop), stepIn_of_rejected hf (decode_of_opcode_ne hop)]
    · exact stepIn_mode_of_findHandler hf (findHandler_general_of_funct7_zero h7)
  case variant =>
    obtain ⟨h, hfound⟩ := exists_findHandler_exact_iff.2 ⟨hop, .inr ⟨h7, h3⟩⟩
    have hdecode := decode_ok.2 ⟨h, hfound, rfl⟩
    obtain ⟨t, -, -, hstep⟩ := stepIn_of_wf hf hdecode (wf_of_decode_exact hdecode)
    exact ⟨stepIn_general_of_funct7_ne hf hop (by rw [h7]; decide), _, hstep⟩
  case illegal =>
    exact ⟨stepIn_general_of_funct7_ne hf hop h7,
      stepIn_of_rejected hf (decode_exact_unsupported_iff.2 fun hlegal => hlegal.2.elim h7 hillegal)⟩

/-! ## One step -/

/-- Settles O25: the bytes at pc are fetched as the instruction's word, which exact mode decodes to it; and past decode
the step is execute and the advance. -/
theorem stepRunsTheDecodedInstruction : Obligations.StepRunsTheDecodedInstruction := by
  refine ⟨fun s i g hi hg hr hx hbytes => ?runs, fun m s w i hf hd => ?composes⟩
  case runs =>
    have hf : fetch s = .next (encode i, 4) := by
      rw [fetch_of_allowed hg hr hx, hbytes, encodeBytes, wordOfBytes_leBytes]
    obtain ⟨t, hexec, hpc, hstep⟩ := stepIn_of_wf hf (decode_encode hi) hi
    exact ⟨t, hexec, hpc, hpc ▸ hstep⟩
  case composes =>
    rw [stepIn_of_decoded hf hd]
    cases exec i s <;> rfl

/-- No step is refused. -/
theorem stepIn_ne_refused (m : DecodeMode) (s : State) (r : Refusal) : stepIn m s ≠ .refused r := by
  rcases stepIn_cases m s with ⟨-, h⟩ | ⟨_, -, -, h⟩ | ⟨_, -, -, h⟩ | ⟨_, _, -, -, -, h⟩ | ⟨_, _, -, -, -, h⟩ <;>
    simp [h]

/-- Settles O28: of what a step can answer, UnsupportedVariant needs a decoded instruction that fails the funct7 test,
which exact mode does not decode, and a refusal is not among it. -/
theorem exactStepNeverRaisesUnsupportedVariant : Obligations.ExactStepNeverRaisesUnsupportedVariant := by
  refine ⟨fun s => ?exact, stepIn_ne_refused⟩
  case exact =>
    rw [step]
    rcases stepIn_cases Config.decodeMode s with
      ⟨-, h⟩ | ⟨_, -, -, h⟩ | ⟨_, -, -, h⟩ | ⟨_, i, -, hdecode, hi, -⟩ | ⟨_, _, -, -, -, h⟩
    case inr.inr.inr.inl => exact absurd (wf_of_decode_exact hdecode) (by simp [hi])
    all_goals simp [h]

/-- States with the same segments and the same byte store have the same address space. -/
theorem sameMemory_of_eq (hs : t.segs = s.segs) (hm : t.mem = s.mem) : SameMemory s t :=
  ⟨hs, hm, fun a => by rw [State.byteAt, State.byteAt, hs, hm]⟩

/-- A successful step changes at most one register (R86, R90). -/
theorem stepIn_next_readReg (h : stepIn m s = .next t) :
    ∃ (d : Reg) (v : Word), ∀ r : Reg, t.readReg r = if r = d ∧ d ≠ 0 then v else s.readReg r := by
  obtain ⟨w, i, -, -, -, rfl⟩ := stepIn_next.1 h
  exact ⟨_, _, fun r => by rw [State.readReg_advancePc, State.readReg_writeReg]⟩

/-- A successful step fetched from a readable and executable segment around its window (R80). -/
theorem stepIn_next_segment (h : stepIn m s = .next t) :
    ∃ g ∈ s.segs, g.contains s.pc.toNat 4 = true ∧ g.perm.r = true ∧ g.perm.x = true := by
  obtain ⟨w, i, hf, -⟩ := stepIn_next.1 h
  rcases fetch_cases s with ⟨-, hfault⟩ | ⟨_, -, -, hfault⟩ | ⟨g, hg, hp, -⟩
  · simp [hfault] at hf
  · simp [hfault] at hf
  · obtain ⟨hmem, hc⟩ := findContaining_some hg
    exact ⟨g, hmem, hc, (Perm.allowsFetch_iff _).1 hp⟩

/-- Settles O27: no segment of a sound table passes 2^64, so past 2^64 - 4 the fetch finds none and at 2^64 - 4 it finds
one that ends there; pc moves by 4 modulo 2^64 and execute is one register write. -/
theorem stepAdvancesPcByFour : Obligations.StepAdvancesPcByFour := by
  intro m s hw
  refine ⟨fun hpast => ?past, fun t hstep => ?_⟩
  case past =>
    have hnone := findContaining_passing_top hw.1 (a := s.pc) (n := 4) (by omega)
    exact stepIn_of_fetch_fault (fetch_fault.2 (resolve_unmapped.2 (findContaining_none.1 hnone)))
  obtain ⟨hpc, hsegs, hmem⟩ := stepIn_next_frame hstep
  refine ⟨fun hbelow => ?below, fun htop => ⟨?wraps, ?segment⟩, sameMemory_of_eq hsegs hmem, stepIn_next_readReg hstep⟩
  case below =>
    rw [hpc, BitVec.toNat_ofNat]
    omega
  case wraps => rw [hpc, htop]; rfl
  case segment =>
    obtain ⟨g, hg, hc, hr, hx⟩ := stepIn_next_segment hstep
    have hstop := ((Segment.contains_iff ..).1 hc).2
    have hfits := ((Segment.fits_iff g).1 (hw.1.1 g hg).1).2
    exact ⟨g, hg, by omega, hr, hx⟩

/-- Settles O29: 4 and 2^64 are multiples of 4, and fetch's two tests ask for a segment and its permissions only. -/
theorem pcKeepsItsResidueAndNeedsNoAlignment : Obligations.PcKeepsItsResidueAndNeedsNoAlignment := by
  refine ⟨fun m s t hstep => ?residue, fun s g hw hg hstart hstop hr hx => ?fetches⟩
  case residue =>
    rw [(stepIn_next_frame hstep).1, BitVec.toNat_ofNat]
    omega
  case fetches =>
    have hc : g.contains s.pc.toNat 4 = true := (Segment.contains_iff ..).2 ⟨hstart, hstop⟩
    exact ⟨_, fetch_of_allowed ((findContaining_eq_some hw.1 (by omega)).2 ⟨hg, hc⟩) hr hx⟩

/-- Settles O34: a successful step leaves the address space as it is, and soundness looks at that alone. -/
theorem stepKeepsTheAddressSpaceSound : Obligations.StepKeepsTheAddressSpaceSound := by
  intro m s t hw hstep
  obtain ⟨-, hsegs, hmem⟩ := stepIn_next_frame hstep
  exact ⟨(State.wf_congr hsegs hmem).2 hw, hsegs, hmem⟩

end Sys2Proof.Machine
end

section
/-! Runs: what a step does to pc and whether it faults depends on pc and the address space, which no step changes but for
the advance by 4; so a run follows the straight line from its pc to the first fault on it (R95, R96,
spec/40_fetch_decode_execute.md). -/

namespace Sys2Proof.Machine

variable {m : DecodeMode} {s t u : State}

/-- Two states whose next instruction is the same whatever their registers hold: one pc and one address space. -/
def SameControl (s u : State) : Prop := u.pc = s.pc ∧ u.segs = s.segs ∧ u.mem = s.mem

/-- Where pc and the address space are the same, a fault of the step is the same (R81, R82, R87). -/
theorem SameControl.stepIn_fault (h : SameControl s u) {r : Fault} (hstep : stepIn m s = .fault r) :
    stepIn m u = .fault r := by
  obtain ⟨hpc, hsegs, hmem⟩ := h
  have hfetch := fetch_congr hpc hsegs hmem
  rcases stepIn_cases m s with ⟨hnone, e⟩ | ⟨g, hg, hp, e⟩ | ⟨w, hf, ⟨⟨⟩, hd⟩, e⟩ | ⟨w, i, hf, hd, hi, e⟩ |
    ⟨w, i, -, -, -, e⟩ <;> rw [e] at hstep <;> cases hstep
  case inl =>
    exact stepIn_of_fetch_fault (hfetch.trans (fetch_fault.2 (resolve_unmapped.2 (findContaining_none.1 hnone))))
  case inr.inl => exact stepIn_of_fetch_fault (hfetch.trans (fetch_fault.2 (resolve_of_denied hg hp)))
  case inr.inr.inl => exact stepIn_of_rejected (hfetch.trans hf) hd
  case inr.inr.inr.inl => exact stepIn_of_not_wf (hfetch.trans hf) hd hi

/-- Where pc and the address space are the same, a step succeeds alike and leaves them the same (R81, R82, R90). -/
theorem SameControl.stepIn_next (h : SameControl s u) (hstep : stepIn m s = .next t) :
    ∃ v, stepIn m u = .next v ∧ SameControl t v := by
  obtain ⟨hpc, hsegs, hmem⟩ := h
  obtain ⟨w, i, hf, hd, hi, rfl⟩ := Machine.stepIn_next.1 hstep
  refine ⟨_, Machine.stepIn_next.2 ⟨w, i, (fetch_congr hpc hsegs hmem).trans hf, hd, hi, rfl⟩, ?_⟩
  simp [SameControl, hpc, hsegs, hmem]

/-- A run of one more step that succeeds begins with a step that does. -/
theorem runIn_succ_next {n : Nat} :
    runIn m (n + 1) s = .next t ↔ ∃ u, stepIn m s = .next u ∧ runIn m n u = .next t :=
  andThen_eq_next

/-- A run of one more step that faults does so in its first step or after it. -/
theorem runIn_succ_fault {n : Nat} {r : Fault} :
    runIn m (n + 1) s = .fault r ↔ stepIn m s = .fault r ∨ ∃ u, stepIn m s = .next u ∧ runIn m n u = .fault r :=
  andThen_eq_fault

/-- Advancing pc by 4 and then by 4n is one advance (R15). -/
theorem ofNat_toNat_add_four (a : Word) (n : Nat) :
    BitVec.ofNat 64 ((BitVec.ofNat 64 (a.toNat + 4)).toNat + 4 * n) = BitVec.ofNat 64 (a.toNat + 4 * (n + 1)) := by
  apply BitVec.eq_of_toNat_eq
  simp only [BitVec.toNat_ofNat]
  omega

/-- Settles O31, by induction on the number of steps. -/
theorem runsAreStraightLine : Obligations.RunsAreStraightLine := by
  intro m n
  induction n with
  | zero =>
    rintro s t ⟨⟩
    exact ⟨by simp, sameMemory_of_eq rfl rfl⟩
  | succ n ih =>
    intro s t hrun
    obtain ⟨u, hstep, hrest⟩ := runIn_succ_next.1 hrun
    obtain ⟨hpc, hsegs, hmem⟩ := stepIn_next_frame hstep
    obtain ⟨hpc', hsegs', hmem', -⟩ := ih u t hrest
    refine ⟨?_, sameMemory_of_eq (hsegs'.trans hsegs) (hmem'.trans hmem)⟩
    rw [hpc', hpc, ofNat_toNat_add_four]

/-- Settles O33, by induction on the number of steps: the first steps go alike and leave pc and the address space the
same. -/
theorem registersNeverSteerControl : Obligations.RegistersNeverSteerControl := by
  intro m n
  induction n with
  | zero =>
    refine fun s u hpc hsegs hmem => ⟨fun r => nofun, ?_⟩
    rintro t ⟨⟩
    exact ⟨u, rfl, hpc, hsegs, hmem⟩
  | succ n ih =>
    intro s u hpc hsegs hmem
    have hsame : SameControl s u := ⟨hpc, hsegs, hmem⟩
    refine ⟨fun r hrun => ?fault, fun t hrun => ?next⟩
    case fault =>
      rcases runIn_succ_fault.1 hrun with hstep | ⟨s', hstep, hrest⟩
      · exact runIn_succ_fault.2 (.inl (hsame.stepIn_fault hstep))
      · obtain ⟨u', hstep', hpc', hsegs', hmem'⟩ := hsame.stepIn_next hstep
        exact runIn_succ_fault.2 (.inr ⟨u', hstep', (ih s' u' hpc' hsegs' hmem').1 r hrest⟩)
    case next =>
      obtain ⟨s', hstep, hrest⟩ := runIn_succ_next.1 hrun
      obtain ⟨u', hstep', hpc', hsegs', hmem'⟩ := hsame.stepIn_next hstep
      obtain ⟨v, hv, hagree⟩ := (ih s' u' hpc' hsegs' hmem').2 t hrest
      exact ⟨v, runIn_succ_next.2 ⟨u', hstep', hv⟩, hagree⟩

/-- After a successful step the straight line from pc is the rest of the line before it (R95). -/
theorem sameControl_writePc_of_stepIn (hstep : stepIn m s = .next t) (k : Nat) :
    SameControl (s.writePc (BitVec.ofNat 64 (s.pc.toNat + 4 * (k + 1))))
      (t.writePc (BitVec.ofNat 64 (t.pc.toNat + 4 * k))) := by
  obtain ⟨hpc, hsegs, hmem⟩ := stepIn_next_frame hstep
  refine ⟨?_, hsegs, hmem⟩
  rw [State.writePc_pc, State.writePc_pc, hpc, ofNat_toNat_add_four]

/-- A fault on the straight line from pc ends the run there or before (R95, R96). -/
theorem exists_runEnds {k : Nat} {r : Fault}
    (hfault : stepIn m (s.writePc (BitVec.ofNat 64 (s.pc.toNat + 4 * k))) = .fault r) :
    ∃ n t q, n ≤ k ∧ RunEnds m s n t q := by
  induction k generalizing s with
  | zero =>
    have hself : s.writePc (BitVec.ofNat 64 (s.pc.toNat + 4 * 0)) = s := by simp [State.writePc]
    exact ⟨0, s, r, Nat.le_refl 0, rfl, hself ▸ hfault⟩
  | succ k ih =>
    cases hstep : stepIn m s with
    | fault q => exact ⟨0, s, q, Nat.zero_le _, rfl, hstep⟩
    | refused q => exact absurd hstep (stepIn_ne_refused m s q)
    | next u =>
      obtain ⟨n, t, q, hn, hrun, hend⟩ := ih ((sameControl_writePc_of_stepIn hstep k).stepIn_fault hfault)
      exact ⟨n + 1, t, q, Nat.succ_le_succ hn, runIn_succ_next.2 ⟨u, hstep, hrun⟩, hend⟩

/-- A run ends in one way only (R96). -/
theorem RunEnds.unique {n k : Nat} {r q : Fault} (h : RunEnds m s n t r) (h' : RunEnds m s k u q) :
    n = k ∧ t = u ∧ r = q := by
  obtain ⟨hrun, hend⟩ := h
  obtain ⟨hrun', hend'⟩ := h'
  induction n generalizing s k with
  | zero =>
    cases hrun
    cases k with
    | zero => cases hrun'; exact ⟨rfl, rfl, by simpa [hend] using hend'⟩
    | succ k =>
      obtain ⟨_, hstep, -⟩ := runIn_succ_next.1 hrun'
      simp [hend] at hstep
  | succ n ih =>
    obtain ⟨v, hstep, hrest⟩ := runIn_succ_next.1 hrun
    cases k with
    | zero => cases hrun'; simp [hend'] at hstep
    | succ k =>
      obtain ⟨v', hstep', hrest'⟩ := runIn_succ_next.1 hrun'
      obtain rfl : v = v' := by simpa [hstep] using hstep'
      obtain ⟨hnk, htu, hrq⟩ := ih hrest hrest'
      exact ⟨congrArg (· + 1) hnk, htu, hrq⟩

/-- Settles O32: the run ends by the fault on its line, where it is straight-line up to there, and the end is unique. -/
theorem runEndsWhereThePathFaults : Obligations.RunEndsWhereThePathFaults := by
  refine ⟨fun m s k r hfault => ?ends, fun m s n k t u r q => RunEnds.unique⟩
  case ends =>
    obtain ⟨n, t, q, hn, hends⟩ := exists_runEnds hfault
    exact ⟨n, t, q, hn, hends, (runsAreStraightLine m n s t hends.1).1⟩

end Sys2Proof.Machine
end

section
/-! Segments of a sound table and what an address reads: no address is in two segments, so a window has one segment or
none, and a byte depends on the covering segment and the store alone (R22, R24, R33, spec/20_memory.md). -/

namespace Sys2Proof.Machine

/-- A segment does not cover an address outside its range. -/
theorem Segment.covers_eq_false (g : Segment) (a : Nat) : g.covers a = false ↔ ¬ (g.start.toNat ≤ a ∧ a < g.stop) := by
  rw [← Bool.not_eq_true, Segment.covers_iff]

/-- A segment does not contain a window that leaves its range. -/
theorem Segment.contains_eq_false (g : Segment) (a n : Nat) :
    g.contains a n = false ↔ ¬ (g.start.toNat ≤ a ∧ a + n ≤ g.stop) := by
  rw [← Bool.not_eq_true, Segment.contains_iff]

/-- A segment covers every address of a window it contains. -/
theorem Segment.covers_of_contains {g : Segment} {a n k : Nat} (hc : g.contains a n = true) (hk : k < n) :
    g.covers (a + k) = true := by
  rw [Segment.contains_iff] at hc
  rw [Segment.covers_iff]
  omega

/-- Settles O37: of two segments that overlap, the later start is in both; and no address is in two segments of a sound
table. -/
theorem overlapIsASharedAddress : Obligations.OverlapIsASharedAddress := by
  refine ⟨fun g h hg hh => ?shared, fun s g h a hw hg hh => SegTable.eq_of_covers hw.1 hg hh⟩
  case shared =>
    simp only [Segment.overlaps_iff, Segment.covers_iff]
    have hgl := ((Segment.fits_iff g).1 hg).1
    have hhl := ((Segment.fits_iff h).1 hh).1
    have hgs : g.stop = g.start.toNat + g.length := rfl
    have hhs : h.stop = h.start.toNat + h.length := rfl
    constructor
    · rintro ⟨h1, h2⟩
      exact ⟨max g.start.toNat h.start.toNat, by omega⟩
    · rintro ⟨a, ha⟩
      omega

/-- Settles O38: a containing segment of a sound table is the answer, a window that only begins in a segment would need
another one there, and a window past 2^64 is in none. -/
theorem windowLiesInOneSegmentOrNone : Obligations.WindowLiesInOneSegmentOrNone := by
  intro s a n hw hn
  refine ⟨fun g hg hstart hstop => ?contained, fun hnone => ?none, fun g hg hc hstop => ?partly,
    findContaining_passing_top hw.1⟩
  case contained => exact (findContaining_eq_some hw.1 hn).2 ⟨hg, (Segment.contains_iff ..).2 ⟨hstart, hstop⟩⟩
  case none => exact findContaining_none.2 fun g hg => (Segment.contains_eq_false ..).2 (hnone g hg)
  case partly =>
    refine findContaining_none.2 fun h hh => (Segment.contains_eq_false ..).2 fun hwindow => ?_
    have hcovers : h.covers a.toNat = true := (Segment.covers_iff ..).2 (by omega)
    obtain rfl := SegTable.eq_of_covers hw.1 hg hh hc hcovers
    omega

/-- An address outside all segments has no byte (R24). -/
theorem byteAt_none {s : State} {a : Nat} : s.byteAt a = none ↔ ∀ g ∈ s.segs, g.covers a = false := by
  simp [State.byteAt]

/-- An address reads alike where it is mapped alike and the store reads alike (R24). -/
theorem byteAt_congr {s t : State} {a : Nat}
    (hsegs : (∃ g ∈ t.segs, g.covers a = true) ↔ ∃ g ∈ s.segs, g.covers a = true)
    (hread : Memory.read t.mem a = Memory.read s.mem a) : t.byteAt a = s.byteAt a := by
  simp only [State.byteAt, List.any_eq_true, hsegs, hread]

end Sys2Proof.Machine
end

section
/-! Load and store by the segment that contains the window: the value is that of the window's bytes, and a store changes
those bytes alone; so the accesses see one byte array (R34, R35, R40, R43, R45, R52, spec/20_memory.md). -/

namespace Sys2Proof.Machine

variable {s t : State} {a v : Word} {bits n : Nat} {g : Segment}

/-! ## Widths -/

/-- No other width has a number of bytes (R43). -/
theorem accessBytes_none (h8 : bits ≠ 8) (h16 : bits ≠ 16) (h32 : bits ≠ 32) (h64 : bits ≠ 64) :
    accessBytes bits = none := by
  cases hn : accessBytes bits with
  | none => rfl
  | some n => rcases accessBytes_some hn with ⟨rfl, -⟩ | ⟨rfl, -⟩ | ⟨rfl, -⟩ | ⟨rfl, -⟩ <;> contradiction

theorem load_of_no_width (hn : accessBytes bits = none) : load s a bits = .refused (.widthOutsideDomain bits) := by
  rw [load, hn]

theorem store_of_no_width (hn : accessBytes bits = none) : store s a bits v = .refused (.widthOutsideDomain bits) := by
  rw [store, hn]

/-- Settles O45: a width without a number of bytes is refused before anything else is looked at. -/
theorem widthsOutsideTheDomainAreRefused : Obligations.WidthsOutsideTheDomainAreRefused := by
  intro s a v bits h8 h16 h32 h64
  have hn := accessBytes_none h8 h16 h32 h64
  exact ⟨load_of_no_width hn, store_of_no_width hn⟩

/-! ## Load -/

/-- In a sound state the segment that contains the window of a port access is the one found (R33, R43). -/
theorem findContaining_of_access (hw : s.wf) (hn : accessBytes bits = some n) (hg : g ∈ s.segs)
    (hc : g.contains a.toNat n = true) : findContaining s.segs a n = some g :=
  (findContaining_eq_some hw.1 (accessBytes_bounds hn).2.1).2 ⟨hg, hc⟩

/-- The value of n bytes is below 2^(8n) (R34). -/
theorem leNat_readBytes_lt (m : Memory) (a n : Nat) : leNat (Memory.readBytes m a n) < 2 ^ (8 * n) := by
  have hlt := leNat_lt (Memory.readBytes m a n)
  rwa [Memory.length_readBytes, show 256 = 2 ^ 8 from rfl, ← Nat.pow_mul] at hlt

/-- Where its window is readable, a load gives the value of the window's bytes, which has no bits beyond the width
(R34). -/
theorem load_of_readable (hw : s.wf) (hn : accessBytes bits = some n) (hg : g ∈ s.segs)
    (hc : g.contains a.toNat n = true) (hr : g.perm.r = true) :
    ∃ v, load s a bits = .next v ∧ v.toNat < 2 ^ bits ∧
      ∀ k < n, s.byteAt (a.toNat + k) = some (v.extractLsb' (8 * k) 8) := by
  obtain ⟨hbits, -, hn8⟩ := accessBytes_bounds hn
  refine ⟨_, load_next.2 ⟨n, g, hn, findContaining_of_access hw hn hg hc, hr, rfl⟩, ?_, fun k hk => ?_⟩
  · rw [hbits]
    exact (Nat.mod_le ..).trans_lt (leNat_readBytes_lt ..)
  · rw [byteAt_of_contains hg hc hk, extractByte_leNat _ k (by omega), Memory.readBytes_getD _ _ _ _ hk]

/-- Settles O39: with no containing segment the window resolves to none, and the permission of a containing one decides
between the denial and the value. -/
theorem loadAssemblesLittleEndian : Obligations.LoadAssemblesLittleEndian := by
  intro s a bits n hw hn
  refine ⟨fun hnone => ?unmapped, fun g hg hc => ⟨fun hr => ?denied, load_of_readable hw hn hg hc⟩⟩
  case unmapped => exact (load_fault hn).2 (resolve_unmapped.2 hnone)
  case denied => exact (load_fault hn).2 (resolve_of_denied (findContaining_of_access hw hn hg hc) hr)

/-! ## Store -/

/-- After a store the store of bytes reads in the window as the value's bytes, and elsewhere as before (R35). -/
theorem read_store (hw : s.wf) (hn : accessBytes bits = some n) (hs : store s a bits v = .next t) :
    (∀ k < n, Memory.read t.mem (a.toNat + k) = v.extractLsb' (8 * k) 8) ∧
    ∀ x, ¬ (a.toNat ≤ x ∧ x < a.toNat + n) → Memory.read t.mem x = Memory.read s.mem x := by
  obtain ⟨n', g, hn', -, -, rfl⟩ := store_next.1 hs
  obtain rfl := Option.some.inj (hn.symm.trans hn')
  simp only [State.withMem_mem, Memory.read_writeBytes hw.2.1, length_leBytes]
  refine ⟨fun k hk => ?window, fun x hx => ?elsewhere⟩
  case window =>
    rw [if_pos (by omega), Nat.add_sub_cancel_left]
    exact leBytes_getD_word n k v hk
  case elsewhere => rw [if_neg hx]

/-- A store leaves the segment table, pc and the registers (R35). -/
theorem store_frame (hs : store s a bits v = .next t) : t.segs = s.segs ∧ t.pc = s.pc ∧ t.regs = s.regs := by
  obtain ⟨_, _, -, -, -, rfl⟩ := store_next.1 hs
  exact ⟨rfl, rfl, rfl⟩

/-- Where its window is writable, a store changes the bytes of the window to those of the value, and nothing else
(R35). -/
theorem store_of_writable (hw : s.wf) (hn : accessBytes bits = some n) (hg : g ∈ s.segs)
    (hc : g.contains a.toNat n = true) (hp : g.perm.w = true) (v : Word) :
    ∃ t, store s a bits v = .next t ∧
      (∀ k < n, t.byteAt (a.toNat + k) = some (v.extractLsb' (8 * k) 8)) ∧
      (∀ x, ¬ (a.toNat ≤ x ∧ x < a.toNat + n) → t.byteAt x = s.byteAt x) := by
  have hs := (store_next (v := v)).2 ⟨n, g, hn, findContaining_of_access hw hn hg hc, hp, rfl⟩
  obtain ⟨hwindow, helse⟩ := read_store hw hn hs
  obtain ⟨hsegs, -⟩ := store_frame hs
  refine ⟨_, hs, fun k hk => ?_, fun x hx => byteAt_congr (by rw [hsegs]) (helse x hx)⟩
  rw [byteAt_of_contains (hsegs ▸ hg) hc hk, hwindow k hk]

/-- Settles O40: with no containing segment the window resolves to none, and the permission of a containing one decides
between the denial and the write of the window. -/
theorem storeWritesItsWindowOnly : Obligations.StoreWritesItsWindowOnly := by
  intro s a v bits n hw hn
  refine ⟨fun hnone => ?unmapped, fun g hg hc => ⟨fun hp => ?denied, fun hp => ?stores⟩⟩
  case unmapped => exact (store_fault hn).2 (resolve_unmapped.2 hnone)
  case denied => exact (store_fault hn).2 (resolve_of_denied (findContaining_of_access hw hn hg hc) hp)
  case stores =>
    obtain ⟨t, hs, hwindow, helse⟩ := store_of_writable hw hn hg hc hp v
    obtain ⟨hsegs, hpc, hregs⟩ := store_frame hs
    exact ⟨t, hs, hwindow, helse, hsegs, hpc, State.readReg_congr hregs⟩

/-! ## Several accesses -/

/-- Settles O42: the window holds the value's n low bytes after the store, and they assemble to the value modulo 2^(8n). -/
theorem storeThenLoadReturnsTheValue : Obligations.StoreThenLoadReturnsTheValue := by
  intro s a v bits n g hw hn hg hc hr hp
  have hfound := findContaining_of_access hw hn hg hc
  have hbytes := Memory.readBytes_writeBytes hw.2.1 a.toNat (leBytes n v.toNat)
  rw [length_leBytes] at hbytes
  have hpow : 256 ^ n = 2 ^ bits := by rw [(accessBytes_bounds hn).1, Nat.pow_mul]
  have hload : load (s.withMem (Memory.writeBytes s.mem a.toNat (leBytes n v.toNat))) a bits =
      .next (BitVec.ofNat 64 (v.toNat % 2 ^ bits)) :=
    load_next.2 ⟨n, g, hn, hfound, hr, by rw [State.withMem_mem, hbytes, leNat_leBytes, hpow]⟩
  refine ⟨_, store_next.2 ⟨n, g, hn, hfound, hp, rfl⟩, hload, fun hfits => ?fits⟩
  case fits => rw [hload, Nat.mod_eq_of_lt hfits, BitVec.ofNat_toNat, BitVec.setWidth_eq]

/-- A word is determined by its eight bytes. -/
theorem Word.eq_of_bytes_eq {u v : Word} (h : ∀ k < 8, u.extractLsb' (8 * k) 8 = v.extractLsb' (8 * k) 8) : u = v := by
  refine BitVec.eq_of_getLsbD_eq fun i hi => ?_
  have hbit := congrArg (·.getLsbD (i % 8)) (h (i / 8) (by omega))
  simpa only [BitVec.getLsbD_extractLsb', Nat.mod_lt i (show 8 > 0 by decide), decide_true, Bool.true_and,
    Nat.div_add_mod] using hbit

/-- A word below 2^8 is its lowest byte, zero-extended. -/
theorem Word.eq_setWidth_of_lt {u : Word} {b : Byte} (hu : u.toNat < 2 ^ 8) (hb : u.extractLsb' (8 * 0) 8 = b) :
    u = b.setWidth 64 := by
  subst hb
  apply BitVec.eq_of_toNat_eq
  simp only [BitVec.toNat_setWidth, BitVec.extractLsb'_toNat]
  omega

/-- Bytes 0 to 3 of two concatenated 32-bit values are those of the lower one. -/
theorem extractByte_append_low (x y : BitVec 32) {k : Nat} (hk : k < 4) :
    (y ++ x).extractLsb' (8 * k) 8 = (x.setWidth 64).extractLsb' (8 * k) 8 := by
  refine BitVec.eq_of_getLsbD_eq fun i hi => ?_
  have hin : 8 * k + i < 32 := by omega
  have hin' : 8 * k + i < 64 := by omega
  rw [BitVec.getLsbD_extractLsb', BitVec.getLsbD_extractLsb', BitVec.getLsbD_append, if_pos hin,
    BitVec.getLsbD_setWidth, decide_eq_true hin', Bool.true_and]

/-- Bytes 4 to 7 of two concatenated 32-bit values are those of the upper one. -/
theorem extractByte_append_high (x y : BitVec 32) {k : Nat} (hk : k < 4) :
    (y ++ x).extractLsb' (8 * (4 + k)) 8 = (y.setWidth 64).extractLsb' (8 * k) 8 := by
  refine BitVec.eq_of_getLsbD_eq fun i hi => ?_
  have hin : ¬ 8 * (4 + k) + i < 32 := by omega
  have hin' : 8 * k + i < 64 := by omega
  have hsub : 8 * (4 + k) + i - 32 = 8 * k + i := by omega
  rw [BitVec.getLsbD_extractLsb', BitVec.getLsbD_extractLsb', BitVec.getLsbD_append, if_neg hin, hsub,
    BitVec.getLsbD_setWidth, decide_eq_true hin', Bool.true_and]

/-- An address of a segment of a sound table is below 2^64, so forming it from a base does not wrap (R22 b). -/
theorem toNat_ofNat_of_covers (hw : s.wf) (hg : g ∈ s.segs) {x : Nat} (hx : g.covers x = true) :
    (BitVec.ofNat 64 x).toNat = x := by
  have hfits := ((Segment.fits_iff g).1 (hw.1.1 g hg).1).2
  have hlt := ((Segment.covers_iff ..).1 hx).2
  rw [BitVec.toNat_ofNat]
  omega

/-- A part of a window lies in the segment that contains the window. -/
theorem Segment.contains_part {a n k l : Nat} (hc : g.contains a n = true) (hkl : k + l ≤ n) :
    g.contains (a + k) l = true := by
  rw [Segment.contains_iff] at hc ⊢
  omega

/-- After a 64-bit store the 8-bit load k further gives byte k of the value (R40, R41). -/
theorem load_byte_of_store_word (hw : s.wf) (hg : g ∈ s.segs) (hr : g.perm.r = true) (hp : g.perm.w = true)
    (hc : g.contains a.toNat 8 = true) {k : Nat} (hk : k < 8) (v : Word) :
    ∃ t, store s a 64 v = .next t ∧
      load t (BitVec.ofNat 64 (a.toNat + k)) 8 = .next ((v.extractLsb' (8 * k) 8).setWidth 64) := by
  obtain ⟨t, hs, hwindow, -⟩ := store_of_writable hw (bits := 64) rfl hg hc hp v
  have haddr := toNat_ofNat_of_covers hw hg (Segment.covers_of_contains hc hk)
  have hwt := store_wf hw hs
  have hgt : g ∈ t.segs := (store_frame hs).1 ▸ hg
  have hck : g.contains (BitVec.ofNat 64 (a.toNat + k)).toNat 1 = true := by
    rw [haddr]
    exact Segment.contains_part hc hk
  obtain ⟨u, hload, hlt, hbytes⟩ := load_of_readable hwt (bits := 8) rfl hgt hck hr
  refine ⟨t, hs, hload.trans (congrArg _ (Word.eq_setWidth_of_lt hlt ?_))⟩
  have hbyte := hbytes 0 (by decide)
  rw [haddr, Nat.add_zero, hwindow k hk] at hbyte
  exact (Option.some.inj hbyte).symm

/-- After 32-bit stores of x and of y behind it a 64-bit load gives y above x (R40, R41). -/
theorem load_word_of_store_halves (hw : s.wf) (hg : g ∈ s.segs) (hr : g.perm.r = true) (hp : g.perm.w = true)
    (hc : g.contains a.toNat 8 = true) (x y : BitVec 32) :
    ∃ t u, store s a 32 (x.setWidth 64) = .next t ∧
      store t (BitVec.ofNat 64 (a.toNat + 4)) 32 (y.setWidth 64) = .next u ∧ load u a 64 = .next (y ++ x) := by
  obtain ⟨t, hs, hlow, -⟩ :=
    store_of_writable hw (bits := 32) rfl hg (Segment.contains_part (k := 0) hc (by decide)) hp (x.setWidth 64)
  have haddr := toNat_ofNat_of_covers hw hg (Segment.covers_of_contains hc (k := 4) (by decide))
  have hwt := store_wf hw hs
  have hgt : g ∈ t.segs := (store_frame hs).1 ▸ hg
  have hc4 : g.contains (BitVec.ofNat 64 (a.toNat + 4)).toNat 4 = true := by
    rw [haddr]
    exact Segment.contains_part hc (by decide)
  obtain ⟨u, hs', hhigh, hkept⟩ := store_of_writable hwt (bits := 32) rfl hgt hc4 hp (y.setWidth 64)
  have hgu : g ∈ u.segs := (store_frame hs').1 ▸ hgt
  obtain ⟨v, hload, -, hbytes⟩ := load_of_readable (store_wf hwt hs') (bits := 64) rfl hgu hc hr
  rw [haddr] at hhigh hkept
  refine ⟨t, u, hs, hs', hload.trans (congrArg _ (Word.eq_of_bytes_eq fun k hk => Option.some.inj ?_))⟩
  rw [← hbytes k hk]
  by_cases hlt : k < 4
  · rw [hkept _ (by omega), hlow k hlt]
    exact congrArg some (extractByte_append_low x y hlt).symm
  · obtain ⟨j, rfl⟩ := Nat.exists_eq_add_of_le (Nat.not_lt.1 hlt)
    rw [← Nat.add_assoc, hhigh j (by omega)]
    exact congrArg some (extractByte_append_high x y (by omega)).symm

/-- Everything a successful fetch says (R80). -/
theorem fetch_next {w : InstrWord} (hf : fetch s = .next (w, 4)) :
    ∃ g, findContaining s.segs s.pc 4 = some g ∧ g.perm.r = true ∧
      w = wordOfBytes (Memory.readBytes s.mem s.pc.toNat 4) := by
  rcases fetch_cases s with ⟨-, h⟩ | ⟨_, -, -, h⟩ | ⟨g, hg, hp, h⟩
  case inr.inr =>
    rw [h, Host.Outcome.next.injEq, Prod.mk.injEq] at hf
    exact ⟨g, hg, ((Perm.allowsFetch_iff _).1 hp).1, hf.1.symm⟩
  all_goals exact absurd (h.symm.trans hf) nofun

/-- A 32-bit load at pc gives the word fetch gives (R34, R80). -/
theorem load_pc_of_fetch {w : InstrWord} (hf : fetch s = .next (w, 4)) : load s s.pc 32 = .next (w.setWidth 64) := by
  obtain ⟨g, hg, hr, rfl⟩ := fetch_next hf
  refine load_next.2 ⟨4, g, rfl, hg, hr, BitVec.eq_of_toNat_eq ?_⟩
  have hlt := leNat_readBytes_lt s.mem s.pc.toNat 4
  simp only [wordOfBytes, BitVec.toNat_setWidth, BitVec.toNat_ofNat]
  omega

/-- Settles O43: stores and loads of any width put and take the same bytes at the same addresses, and fetch takes them as
a load does. -/
theorem mixedWidthsSeeOneByteArray : Obligations.MixedWidthsSeeOneByteArray := by
  intro s a g hw hg hr
  exact ⟨fun v k hc hp hk => load_byte_of_store_word hw hg hr hp hc hk v,
    fun x y hc hp => load_word_of_store_halves hw hg hr hp hc x y, fun w => load_pc_of_fetch⟩

/-- Settles O44: the fetched word has the bytes the store reads from pc on, and in the stored window those are the
value's. -/
theorem fetchSeesEarlierStores : Obligations.FetchSeesEarlierStores := by
  intro s t a v bits n w hw hn hs hf j hj k hk haddr
  obtain ⟨-, -, -, rfl⟩ := fetch_next hf
  rw [extractByte_wordOfBytes_readBytes _ _ hk, ← haddr, (read_store hw hn hs).1 j hj]

end Sys2Proof.Machine
end

section
/-! add_segment by its tests in order, remove_segment by whether the segment is there, and what each leaves at every
address (R31, R32, spec/20_memory.md). -/

namespace Sys2Proof.Machine

variable {s t : State} {a : Word} {n : Nat} {b : BitVec 8} {g : Segment}

/-! ## add_segment -/

/-- An empty range and one that passes 2^64 are refused (R22 b). -/
theorem addSegment_of_illFormed (h : ¬ (1 ≤ n ∧ a.toNat + n ≤ 2 ^ 64)) :
    addSegment s a n b = .refused .illFormedSegment := if_neg h

/-- For a well-formed range the permissions are tested first (R31). -/
theorem addSegment_of_invalidPermissions (h : 1 ≤ n ∧ a.toNat + n ≤ 2 ^ 64) (hb : Perm.ofBits b = none) :
    addSegment s a n b = .fault .invalidPermissions := by
  rw [addSegment, if_pos h, hb]

/-- An overlap of a table with a segment, as the spec compares the ranges (R22 a, R31). -/
theorem any_overlaps_iff {gs : List Segment} :
    gs.any (·.overlaps g) = true ↔ ∃ h ∈ gs, h.start.toNat < g.stop ∧ g.start.toNat < h.stop := by
  simp only [List.any_eq_true, Segment.overlaps_iff]

/-- With legal permissions a range that overlaps a segment is an error (R31). -/
theorem addSegment_of_overlap {p : Perm} (h : 1 ≤ n ∧ a.toNat + n ≤ 2 ^ 64) (hb : Perm.ofBits b = some p)
    (ho : ∃ h ∈ s.segs, h.start.toNat < a.toNat + n ∧ a.toNat < h.stop) :
    addSegment s a n b = .fault .overlapError := by
  have hany := (any_overlaps_iff (g := { start := a, length := n, perm := p })).2 ho
  simp only [addSegment, if_pos h, hb, hany, if_true]

/-- With legal permissions and no overlap the segment is installed (R31). -/
theorem addSegment_of_free {p : Perm} (h : 1 ≤ n ∧ a.toNat + n ≤ 2 ^ 64) (hb : Perm.ofBits b = some p)
    (ho : ¬ ∃ h ∈ s.segs, h.start.toNat < a.toNat + n ∧ a.toNat < h.stop) :
    ∃ t, addSegment s a n b = .next ({ start := a, length := n, perm := p }, t) := by
  have hany := mt (any_overlaps_iff (g := { start := a, length := n, perm := p })).1 ho
  exact ⟨_, addSegment_next.2 ⟨h.1, h.2, rfl, rfl, hb, Bool.eq_false_iff.2 hany, rfl⟩⟩

/-- A well-formed range is not refused (R31). -/
theorem addSegment_ne_refused (h : 1 ≤ n ∧ a.toNat + n ≤ 2 ^ 64) (r : Refusal) : addSegment s a n b ≠ .refused r := by
  cases hb : Perm.ofBits b with
  | none => simp [addSegment_of_invalidPermissions h hb]
  | some p =>
    by_cases ho : ∃ h ∈ s.segs, h.start.toNat < a.toNat + n ∧ a.toNat < h.stop
    · simp [addSegment_of_overlap h hb ho]
    · obtain ⟨t, ht⟩ := addSegment_of_free h hb ho
      simp [ht]

/-- The vectors that are no permission set: the empty one and those with a bit of 7 to 3 (R4, R21). -/
theorem Perm.ofBits_of_illegal : ∀ b : BitVec 8, b = 0 ∨ 8 ≤ b.toNat → Perm.ofBits b = none := by decide

/-- The others are read bit by bit: R bit 0, W bit 1, X bit 2 (R4, R21). -/
theorem Perm.ofBits_of_legal : ∀ b : BitVec 8, b ≠ 0 → b.toNat < 8 →
    Perm.ofBits b = some { r := b.getLsbD 0, w := b.getLsbD 1, x := b.getLsbD 2 } := by decide

/-- After an installation the new segment's addresses read 0 and every other address reads as before (R31). -/
theorem byteAt_addSegment (h : addSegment s a n b = .next (g, t)) (x : Nat) :
    t.byteAt x = if g.covers x then some 0 else s.byteAt x := by
  obtain ⟨-, -, -, -, -, -, rfl⟩ := addSegment_next.1 h
  split
  case isTrue hx =>
    rw [byteAt_of_covers (mem_insertSegment.2 (.inl rfl)) hx, State.withMem_mem, Memory.read_clear, if_pos hx]
    rfl
  case isFalse hx =>
    refine byteAt_congr ?_ (by rw [State.withMem_mem, Memory.read_clear, if_neg hx])
    simp [mem_insertSegment, or_and_right, exists_or, hx]

/-- An installation leaves pc and the registers (R31). -/
theorem addSegment_frame (h : addSegment s a n b = .next (g, t)) : t.pc = s.pc ∧ t.regs = s.regs := by
  obtain ⟨-, -, -, -, -, -, rfl⟩ := addSegment_next.1 h
  exact ⟨rfl, rfl⟩

/-- Settles O46: the tests in their order, each deciding for one error, and the installation by what it leaves at every
address. -/
theorem addSegmentContract : Obligations.AddSegmentContract := by
  intro s start length bits
  refine ⟨addSegment_of_illFormed, fun hlength hstop =>
    ⟨fun hillegal => ?permissions, fun hnonzero hlt => ⟨fun hoverlap => ?overlap, fun hfree => ?installed⟩⟩⟩
  case permissions => exact addSegment_of_invalidPermissions ⟨hlength, hstop⟩ (Perm.ofBits_of_illegal bits hillegal)
  all_goals have hperm := Perm.ofBits_of_legal bits hnonzero hlt
  case overlap => exact addSegment_of_overlap ⟨hlength, hstop⟩ hperm hoverlap
  case installed =>
    obtain ⟨t, hadd⟩ := addSegment_of_free ⟨hlength, hstop⟩ hperm fun ⟨h, hh, hoverlap⟩ => hfree h hh hoverlap
    obtain ⟨hpc, hregs⟩ := addSegment_frame hadd
    obtain ⟨-, -, -, -, -, -, ht⟩ := addSegment_next.1 hadd
    refine ⟨_, t, hadd, rfl, rfl, rfl, rfl, rfl, fun h => ?table, fun x hx => ?zeros, fun x hx => ?others, hpc,
      State.readReg_congr hregs⟩
    case table => rw [ht, State.withMem_segs, State.withSegs_segs, mem_insertSegment]
    case zeros => rw [byteAt_addSegment hadd, if_pos hx]
    case others => rw [byteAt_addSegment hadd, if_neg (Bool.eq_false_iff.1 hx)]

/-! ## remove_segment -/

/-- A segment of the table goes with its bytes (R32). -/
theorem removeSegment_of_mem (hg : g ∈ s.segs) :
    removeSegment s g = (s.withSegs (s.segs.erase g)).withMem (Memory.clear s.mem g) := if_pos hg

/-- Removing a segment that is not in the table changes nothing (R32). -/
theorem removeSegment_of_not_mem (hg : g ∉ s.segs) : removeSegment s g = s := if_neg hg

/-- Removing a segment of a sound table leaves exactly the others (R32). -/
theorem mem_removeSegment_segs (hw : s.wf) (hg : g ∈ s.segs) (h : Segment) :
    h ∈ (removeSegment s g).segs ↔ h ∈ s.segs ∧ h ≠ g := by
  rw [removeSegment_of_mem hg, State.withMem_segs, State.withSegs_segs, (SegTable.nodup hw.1).mem_erase_iff]
  exact and_comm

/-- After a removal from a sound table the segment's addresses are unmapped and every other one reads as before (R32). -/
theorem byteAt_removeSegment (hw : s.wf) (hg : g ∈ s.segs) (x : Nat) :
    (removeSegment s g).byteAt x = if g.covers x then none else s.byteAt x := by
  split
  case isTrue hx =>
    refine byteAt_none.2 fun h hh => Bool.eq_false_iff.2 fun hcovers => ?_
    obtain ⟨hmem, hne⟩ := (mem_removeSegment_segs hw hg h).1 hh
    exact hne (SegTable.eq_of_covers hw.1 hmem hg hcovers hx)
  case isFalse hx =>
    refine byteAt_congr ?_ (by rw [removeSegment_of_mem hg, State.withMem_mem, Memory.read_clear, if_neg hx])
    have hne : ∀ h : Segment, h.covers x = true → h ≠ g := fun h hcovers heq => hx (heq ▸ hcovers)
    simp only [mem_removeSegment_segs hw hg]
    exact ⟨fun ⟨h, hh, hcovers⟩ => ⟨h, hh.1, hcovers⟩, fun ⟨h, hh, hcovers⟩ => ⟨h, ⟨hh, hne h hcovers⟩, hcovers⟩⟩

/-- A removal leaves pc and the registers (R32). -/
theorem removeSegment_frame (s : State) (g : Segment) :
    (removeSegment s g).pc = s.pc ∧ (removeSegment s g).regs = s.regs := by
  unfold removeSegment
  split <;> exact ⟨rfl, rfl⟩

/-- Settles O47: what is left of the table, and what every address reads then; an absent segment changes nothing. -/
theorem removeSegmentContract : Obligations.RemoveSegmentContract := by
  intro s g hw
  refine ⟨fun hg => ?removed, removeSegment_of_not_mem⟩
  case removed =>
    obtain ⟨hpc, hregs⟩ := removeSegment_frame s g
    exact ⟨mem_removeSegment_segs hw hg, fun x hx => by rw [byteAt_removeSegment hw hg, if_pos hx],
      fun x hx => by rw [byteAt_removeSegment hw hg, if_neg (Bool.eq_false_iff.1 hx)], hpc, State.readReg_congr hregs⟩

end Sys2Proof.Machine
end

section
/-! Host moves: which operations refuse, what state the host goes on from, and that it is sound (R7, R22, R38, R186,
spec/70_reset_and_hazards.md). -/

namespace Sys2Proof.Machine

variable {s t : State}

/-- An operation that does not refuse leaves the host a state: its own, or after a failure the unchanged one (R38). -/
theorem exists_stateAfter {φ : Type} {o : Host.Outcome State φ Refusal} (ho : ∀ r, o ≠ .refused r) (s : State) :
    ∃ t, stateAfter s o = .ok t ∧ (o = .next t ∨ ((∃ r, o = .fault r) ∧ t = s)) := by
  cases o with
  | next t => exact ⟨t, rfl, .inl rfl⟩
  | fault r => exact ⟨s, rfl, .inr ⟨⟨r, rfl⟩, rfl⟩⟩
  | refused r => exact absurd rfl (ho r)

/-- A window is resolved or faults (R37). -/
theorem resolve_ne_refused (s : State) (a : Word) (n : Nat) (p : Perm → Bool) (r : Refusal) :
    resolve s a n p ≠ .refused r := by
  rcases resolve_cases s a n p with ⟨-, h⟩ | ⟨_, -, -, h⟩ | ⟨_, -, -, h⟩ <;> simp [h]

/-- A store of a served width is not refused (R43). -/
theorem store_ne_refused {a v : Word} {bits n : Nat} (hn : accessBytes bits = some n) (r : Refusal) :
    store s a bits v ≠ .refused r := by
  simp [store, hn, andThen_eq_refused, resolve_ne_refused]

/-- Execute is not refused (R86). -/
theorem exec_ne_refused (i : Instr) (s : State) (r : Refusal) : exec i s ≠ .refused r := by
  rcases exec_cases i s with ⟨-, h⟩ | ⟨-, h⟩ <;> simp [h]

/-- The only fault of execute is UnsupportedVariant (R86). -/
theorem exec_fault {i : Instr} {r : Fault} (h : exec i s = .fault r) : r = .unsupportedVariant := by
  rcases exec_cases i s with ⟨-, e⟩ | ⟨-, e⟩ <;> rw [e] at h <;> cases h
  rfl

/-- Settles O52: a write refuses for its width alone and add_segment for an ill-formed range alone; what does not refuse
has a state after it. -/
theorem hostMoveIsRefusedOnlyOutsideTheDomain : Obligations.HostMoveIsRefusedOnlyOutsideTheDomain := by
  refine ⟨fun s a v bits => ⟨?width, fun hserved => ?write⟩,
    fun s start length perm => ⟨fun hill => ?illFormed, fun hlength hstop => ?add⟩,
    fun s g i x y h w => ⟨rfl, rfl, rfl, ?execute⟩⟩
  case width =>
    rintro ⟨h8, h16, h32, h64⟩
    rw [hostMove, store_of_no_width (accessBytes_none h8 h16 h32 h64), stateAfter]
  case write =>
    obtain ⟨n, hn⟩ : ∃ n, accessBytes bits = some n := by
      rcases hserved with rfl | rfl | rfl | rfl <;> exact ⟨_, rfl⟩
    exact exists_stateAfter (store_ne_refused hn) s
  case illFormed => rw [hostMove, addSegment_of_illFormed hill, andThen_refused, stateAfter]
  case add =>
    rw [hostMove]
    cases hadd : addSegment s start length perm with
    | next p => exact ⟨p.2, rfl, .inl ⟨p.1, rfl⟩⟩
    | fault e => exact ⟨s, rfl, .inr ⟨⟨e, rfl⟩, rfl⟩⟩
    | refused r => exact absurd hadd (addSegment_ne_refused ⟨hlength, hstop⟩ r)
  case execute =>
    obtain ⟨t, ht, hnext | ⟨⟨r, hfault⟩, rfl⟩⟩ := exists_stateAfter (exec_ne_refused (h.on w) s) s
    · exact ⟨t, ht, .inl hnext⟩
    · exact ⟨t, ht, .inr ⟨exec_fault hfault ▸ hfault, rfl⟩⟩

/-- A register write keeps the invariant (R22). -/
theorem writeReg_wf (hw : s.wf) (i : Reg) (v : Word) : (s.writeReg i v).wf :=
  (State.wf_congr (State.writeReg_segs ..) (State.writeReg_mem ..)).2 hw

/-- A state the host goes on from is sound when a success of the operation is. -/
theorem stateAfter_wf {φ : Type} {o : Host.Outcome State φ Refusal} (hw : s.wf) (ho : ∀ u, o = .next u → u.wf)
    (h : stateAfter s o = .ok t) : t.wf := by
  rcases stateAfter_ok.1 h with hnext | ⟨-, rfl⟩
  · exact ho t hnext
  · exact hw

/-- Settles O35: each operation keeps the invariant where it succeeds, and a failing one changes nothing. -/
theorem hostMovesKeepTheAddressSpaceSound : Obligations.HostMovesKeepTheAddressSpaceSound := by
  intro v s t hw h
  cases v with
  | writeMemory a bits x => exact stateAfter_wf hw (fun u => store_wf hw) h
  | addSegment a n b =>
    refine stateAfter_wf hw (fun u hu => ?_) h
    obtain ⟨⟨g, u'⟩, hadd, hu'⟩ := andThen_eq_next.1 hu
    cases hu'
    exact addSegment_wf hw hadd
  | removeSegment g =>
    cases h
    exact removeSegment_wf hw g
  | writeReg i x =>
    cases h
    exact writeReg_wf hw i x
  | writePc x =>
    cases h
    exact (State.wf_congr rfl rfl).2 hw
  | execute k w =>
    refine stateAfter_wf hw (fun u hu => ?_) h
    obtain ⟨-, rfl⟩ := exec_next.1 hu
    exact writeReg_wf hw _ _

/-- A launch is sound (R22, R174). -/
theorem loadProcess_wf {file : List Byte} {l : Option Nat} {b : Word} (h : loadProcess file l b = .next s) : s.wf := by
  obtain ⟨hd, u, -, -, hsegments, hstack⟩ := loadProcess_next h
  obtain ⟨g, v, hadd, rfl⟩ := placeStack_next hstack
  exact writeReg_wf (addSegment_wf (loadSegments_wf (newProcess_wf _) hsegments) hadd) _ _

/-- Settles O36: a launch is sound, and steps and host moves keep it so. -/
theorem everyReachableStateIsSound : Obligations.EveryReachableStateIsSound := by
  intro m s h
  induction h with
  | launched file l b s hload => exact loadProcess_wf hload
  | stepped s t _ hstep hw => exact (stepKeepsTheAddressSpaceSound m s t hw hstep).1
  | moved s t v _ hmove hw => exact hostMovesKeepTheAddressSpaceSound v s t hw hmove

end Sys2Proof.Machine
end

section
/-! What the loader reads from a file: a field of a header is the little-endian value of the file's bytes at the field's
place, and the first failing check on the file header is the answer (R177, R178, spec/70_reset_and_hazards.md). -/

namespace Sys2Proof.Machine

/-! ## Fields -/

theorem fieldOf_zero (r : List Byte) (o : Nat) : fieldOf r o 0 = 0 := rfl

/-- A field's first byte is its least significant one (R40). -/
theorem fieldOf_succ (r : List Byte) (o n : Nat) :
    fieldOf r o (n + 1) = (r.getD o 0).toNat + 256 * fieldOf r (o + 1) n := by
  unfold fieldOf
  by_cases ho : o < r.length
  · rw [List.drop_eq_getElem_cons ho, List.take_succ_cons, leNat, List.getD_eq_getElem _ _ ho]
  · have hdrop : ∀ p, o ≤ p → r.drop p = [] := fun p hp => List.drop_eq_nil_of_le (by omega)
    rw [hdrop o (Nat.le_refl o), hdrop (o + 1) (Nat.le_succ o), List.getD_eq_default _ _ (by omega)]
    simp [leNat]

/-- A field of one byte. -/
theorem fieldOf_one (r : List Byte) (o : Nat) : fieldOf r o 1 = (r.getD o 0).toNat := by
  rw [fieldOf_succ, fieldOf_zero, Nat.mul_zero, Nat.add_zero]

/-- A field of two bytes. -/
theorem fieldOf_two (r : List Byte) (o : Nat) :
    fieldOf r o 2 = (r.getD o 0).toNat + 256 * (r.getD (o + 1) 0).toNat := by
  rw [fieldOf_succ, fieldOf_one]

/-- Byte k of a field held in a word is the record's byte at the field's place plus k (R177). -/
theorem extractByte_fieldOf (r : List Byte) (o : Nat) {k : Nat} (hk : k < 8) :
    (BitVec.ofNat 64 (fieldOf r o 8)).extractLsb' (8 * k) 8 = r.getD (o + k) 0 := by
  rw [← byte_fieldOf r o hk, fieldOf, byte_leNat, extractByte_leNat _ k (by omega)]

/-- The first four bytes of a record. -/
theorem take_four {r : List Byte} (hr : 4 ≤ r.length) :
    r.take 4 = [r.getD 0 0, r.getD 1 0, r.getD 2 0, r.getD 3 0] := by
  obtain ⟨b0, b1, b2, b3, hbytes⟩ := List.length_eq_four.1 (List.length_take_of_le hr)
  rw [← List.take_append_drop 4 r, hbytes]
  rfl

/-! ## Headers -/

/-- A read past the file's end gives nothing (R179). -/
theorem readFile_none {file : List Byte} {o n : Nat} : readFile file o n = none ↔ file.length < o + n := by
  simp [readFile]

/-- A file header can be read from 64 bytes on (log entry 27). -/
theorem readFileHeader_none {file : List Byte} (h : file.length < 64) : readFileHeader file = none := by
  rw [readFileHeader, readFile_none.2 (by omega), Option.map_none]

/-- A program header is read exactly where the file holds its 56 bytes (log entry 27). -/
theorem readProgramHeader_none {file : List Byte} {o : Nat} (h : file.length < o + 56) :
    readProgramHeader file o = none := by
  rw [readProgramHeader, readFile_none.2 h, Option.map_none]

/-- Settles O53: a header's record is a part of the file, and each field the little-endian value of its bytes. -/
theorem elfFieldsAreReadFromTheirPlaces : Obligations.ElfFieldsAreReadFromTheirPlaces := by
  refine ⟨fun file => ⟨readFileHeader_none, fun hlength => ?fileHeader⟩,
    fun file o => ⟨readProgramHeader_none, fun hlength => ?programHeader⟩⟩
  case fileHeader =>
    have hr := readFile_some.2 ⟨(Nat.zero_add 64).trans_le hlength, rfl⟩
    have hbyte : ∀ k < 64, ((file.drop 0).take 64).getD k 0 = file.getD k 0 := fun k hk => by
      rw [getD_readFile hr hk, Nat.zero_add]
    refine ⟨_, by rw [readFileHeader, hr, Option.map_some], ?_⟩
    simp only [fieldOf_one, fieldOf_two, hbyte, Nat.reduceAdd, Nat.reduceLT,
      take_four ((length_readFile hr).symm ▸ (by decide : 4 ≤ 64)), true_and, and_true]
    refine ⟨⟨fieldOf_lt .., fun k hk => ?version⟩, fun k hk => ?entry, fieldOf_lt .., fun k hk => ?table⟩
    case version => rw [byte_fieldOf _ _ hk, hbyte _ (by omega)]
    case entry => rw [extractByte_fieldOf _ _ hk, hbyte _ (by omega)]
    case table => rw [byte_fieldOf _ _ hk, hbyte _ (by omega)]
  case programHeader =>
    have hr := readFile_some.2 ⟨hlength, rfl⟩
    have hfield : ∀ {q n : Nat}, q + n ≤ 56 → ∀ k < n,
        BitVec.ofNat 8 (fieldOf ((file.drop o).take 56) q n / 2 ^ (8 * k)) = file.getD (o + q + k) 0 :=
      fun hq k hk => by rw [byte_fieldOf _ _ hk, getD_readFile hr (by omega), Nat.add_assoc]
    refine ⟨_, by rw [readProgramHeader, hr, Option.map_some], ?_⟩
    refine ⟨⟨fieldOf_lt .., hfield (by decide)⟩, ⟨fieldOf_lt .., hfield (by decide)⟩,
      ⟨fieldOf_lt .., hfield (by decide)⟩, fun k hk => ?address, ⟨fieldOf_lt .., hfield (by decide)⟩, fieldOf_lt .., hfield (by decide)⟩
    case address => rw [extractByte_fieldOf _ _ hk, getD_readFile hr (by omega), Nat.add_assoc]

/-! ## The checks on the file header -/

/-- A failing check is the loader's answer, whatever else the file holds (R178). -/
theorem loadProcess_of_invalid {file : List Byte} {h : ElfHeader} {e : LoadError} (hread : readFileHeader file = some h)
    (hinvalid : validateHeader h = some e) (l : Option Nat) (b : Word) : loadProcess file l b = .fault e := by
  simp only [loadProcess, hread, hinvalid]

/-- Settles O51: the checks are made in order, so the first that fails is the error, and that is the answer. -/
theorem firstViolatedHeaderCheckNamesTheError : Obligations.FirstViolatedHeaderCheckNamesTheError := by
  intro file h limit base hread
  refine ⟨fun h1 => ?_, fun h1 => ⟨fun h2 => ?_, fun h2 => ⟨fun h3 => ?_, fun h3 => ⟨fun h4 => ?_, fun h4 =>
    ⟨fun h5 => ?_, fun h5 => ⟨fun h6 => ?_, fun h6 => ⟨fun h7 => ?_, fun h7 h8 => ?_⟩⟩⟩⟩⟩⟩⟩
  all_goals
    refine loadProcess_of_invalid hread ?_ limit base
    simp only [validateHeader, ne_eq, not_true_eq_false, not_false_eq_true, if_true, if_false, *]

end Sys2Proof.Machine
end

section
/-! The address space a launch builds: each loadable header adds its segment with the file's bytes and leaves the segments
that are there, and the stack is added to those (R174, R179, spec/70_reset_and_hazards.md). -/

namespace Sys2Proof.Machine

variable {file : List Byte} {p : ProgramHeader} {h : ElfHeader} {s t u : State} {g : Segment}

/-- The segment a loadable header describes (R179). -/
def ProgramHeader.segment (p : ProgramHeader) : Segment :=
  { start := p.virtualAddress, length := p.memorySize, perm := translateFlags p.flags }

/-- The header's segment is in the table and holds the file's bytes and then zeros (R174, R179). -/
def Loaded (file : List Byte) (p : ProgramHeader) (s : State) : Prop :=
  p.segment ∈ s.segs ∧ p.fileSize ≤ p.memorySize ∧ p.fileOffset + p.fileSize ≤ file.length ∧
    ∀ k < p.memorySize, s.byteAt (p.virtualAddress.toNat + k) =
      some (if k < p.fileSize then file.getD (p.fileOffset + k) 0 else 0)

/-- From s to t every segment stays, with its bytes. -/
def KeepsSegments (s t : State) : Prop :=
  ∀ g ∈ s.segs, g ∈ t.segs ∧ ∀ x, g.covers x = true → t.byteAt x = s.byteAt x

theorem KeepsSegments.refl (s : State) : KeepsSegments s s := fun _ hg => ⟨hg, fun _ _ => rfl⟩

theorem KeepsSegments.trans (hst : KeepsSegments s t) (htu : KeepsSegments t u) : KeepsSegments s u := fun g hg =>
  have ⟨hgt, ht⟩ := hst g hg
  have ⟨hgu, hu⟩ := htu g hgt
  ⟨hgu, fun x hx => (hu x hx).trans (ht x hx)⟩

/-- A segment covers the addresses from its start on, for its length (R20). -/
theorem Segment.covers_start_add {g : Segment} {k : Nat} (hk : k < g.length) :
    g.covers (g.start.toNat + k) = true := by
  rw [Segment.covers_iff, Segment.stop]
  omega

/-- The header's segment is its memory range (R179). -/
theorem ProgramHeader.segment_covers_eq_false (p : ProgramHeader) (x : Nat) :
    p.segment.covers x = false ↔ ¬ (p.virtualAddress.toNat ≤ x ∧ x < p.virtualAddress.toNat + p.memorySize) :=
  Segment.covers_eq_false ..

/-- What is loaded stays loaded while segments are kept. -/
theorem Loaded.mono (hp : Loaded file p s) (hst : KeepsSegments s t) : Loaded file p t := by
  obtain ⟨hmem, hsize, hfile, hbytes⟩ := hp
  obtain ⟨hmem', hkept⟩ := hst _ hmem
  exact ⟨hmem', hsize, hfile, fun k hk => (hkept _ (Segment.covers_start_add hk)).trans (hbytes k hk)⟩

/-! ## One segment -/

/-- The segment installed for a permission set is that of the arguments (R31). -/
theorem addSegment_toBits_next {a : Word} {n : Nat} {q : Perm} (hadd : addSegment s a n q.toBits = .next (g, t)) :
    g = { start := a, length := n, perm := q } := by
  obtain ⟨-, -, rfl, rfl, hperm, -, -⟩ := addSegment_next.1 hadd
  rw [Perm.ofBits_toBits] at hperm
  split at hperm
  · cases hperm
    rfl
  · cases hperm

/-- Adding a segment keeps those that are there (R31). -/
theorem addSegment_keepsSegments {a : Word} {n : Nat} {b : BitVec 8} (hadd : addSegment s a n b = .next (g, t)) :
    KeepsSegments s t := fun k hk =>
  have ⟨hkt, hkept⟩ := (addSegment_keeps hadd).1 k hk
  ⟨hkt, fun x hx => by rw [byteAt_addSegment hadd, if_neg (Bool.eq_false_iff.1 (hkept x hx).1)]⟩

/-- Bytes written at an address of a segment are what it reads. -/
theorem byteAt_writeBytes_inside (hm : Memory.wf s.mem) (hg : g ∈ s.segs) {a k : Nat} {bs : List Byte}
    (hx : g.covers (a + k) = true) (hk : k < bs.length) :
    (s.withMem (Memory.writeBytes s.mem a bs)).byteAt (a + k) = some (bs.getD k 0) := by
  rw [byteAt_of_covers (s := s.withMem (Memory.writeBytes s.mem a bs)) hg hx, State.withMem_mem,
    Memory.read_writeBytes hm, if_pos (by omega), Nat.add_sub_cancel_left]
  rfl

/-- Addresses outside the window written read as before. -/
theorem byteAt_writeBytes_outside (hm : Memory.wf s.mem) {a x : Nat} {bs : List Byte}
    (hx : ¬ (a ≤ x ∧ x < a + bs.length)) : (s.withMem (Memory.writeBytes s.mem a bs)).byteAt x = s.byteAt x :=
  byteAt_congr Iff.rfl (by rw [State.withMem_mem, Memory.read_writeBytes hm, if_neg hx])

/-- Loader step 2 on a loadable header loads it (R179). -/
theorem loadSegment_loaded (hw : s.wf) (hload : loadSegment file p s = .next t) (hp : p.headerType = 1) :
    Loaded file p t := by
  rcases loadSegment_next hload with ⟨hne, -⟩ | ⟨-, g, u, bytes, hadd, hsize, hread, rfl⟩
  · exact absurd hp hne
  obtain rfl : g = p.segment := addSegment_toBits_next hadd
  have hwu := addSegment_wf hw hadd
  have hg : p.segment ∈ u.segs := by
    obtain ⟨-, -, -, -, -, -, rfl⟩ := addSegment_next.1 hadd
    exact mem_insertSegment.2 (.inl rfl)
  have hlength := length_readFile hread
  refine ⟨hg, hsize, (readFile_some.1 hread).1, fun k hk => ?bytes⟩
  case bytes =>
    have hcovers : p.segment.covers (p.virtualAddress.toNat + k) = true := Segment.covers_start_add hk
    by_cases hkf : k < p.fileSize
    · rw [byteAt_writeBytes_inside hwu.2.1 hg hcovers (hlength.symm ▸ hkf), getD_readFile hread hkf, if_pos hkf]
    · rw [byteAt_writeBytes_outside hwu.2.1 (by omega), byteAt_addSegment hadd, if_pos hcovers, if_neg hkf]

/-- Loader step 2 keeps the segments that are there (R179). -/
theorem loadSegment_keepsSegments (hw : s.wf) (hload : loadSegment file p s = .next t) : KeepsSegments s t := by
  rcases loadSegment_next hload with ⟨-, rfl⟩ | ⟨-, g, u, bytes, hadd, hsize, hread, rfl⟩
  · exact KeepsSegments.refl t
  obtain rfl : g = p.segment := addSegment_toBits_next hadd
  have hwu := addSegment_wf hw hadd
  have hlength := length_readFile hread
  intro k hk
  obtain ⟨hku, hkept⟩ := addSegment_keepsSegments hadd k hk
  refine ⟨hku, fun x hx => ?bytes⟩
  case bytes =>
    have houtside := ((addSegment_keeps hadd).1 k hk).2 x hx |>.1
    rw [p.segment_covers_eq_false] at houtside
    rw [byteAt_writeBytes_outside hwu.2.1 (by omega), hkept x hx]

/-- Loader step 2 adds no other segment than the header's, and none for a header that is not loadable (R179). -/
theorem loadSegment_segs (hload : loadSegment file p s = .next t) :
    ∀ g ∈ t.segs, g ∈ s.segs ∨ (p.headerType = 1 ∧ g = p.segment) := by
  intro k hk
  rcases loadSegment_next hload with ⟨-, rfl⟩ | ⟨hp, g, u, bytes, hadd, -, -, rfl⟩
  · exact .inl hk
  obtain rfl : g = p.segment := addSegment_toBits_next hadd
  exact ((addSegment_keeps hadd).2 k hk).elim (fun heq => .inr ⟨hp, heq⟩) .inl

/-! ## The table -/

/-- Loader step 2 keeps the segments that are there, for every header of the table (R179). -/
theorem loadSegments_keepsSegments {i n : Nat} (hw : s.wf) (hload : loadSegments file h i n s = .next t) :
    KeepsSegments s t := by
  induction n generalizing i s with
  | zero => cases hload; exact KeepsSegments.refl t
  | succ n ih =>
    obtain ⟨p, u, -, hfirst, hrest⟩ := loadSegments_succ_next hload
    exact (loadSegment_keepsSegments hw hfirst).trans (ih (loadSegment_wf hw hfirst) hrest)

/-- Every header of the table was read, and the loadable ones are loaded (R179). -/
theorem loadSegments_loaded {i n : Nat} (hw : s.wf) (hload : loadSegments file h i n s = .next t) :
    ∀ j < n, ∃ p, readProgramHeader file (h.headerOffset (i + j)) = some p ∧ (p.headerType = 1 → Loaded file p t) := by
  induction n generalizing i s with
  | zero => nofun
  | succ n ih =>
    obtain ⟨p, u, hread, hfirst, hrest⟩ := loadSegments_succ_next hload
    have hwu := loadSegment_wf hw hfirst
    rintro (_ | j) hj
    · exact ⟨p, hread, fun hp => (loadSegment_loaded hw hfirst hp).mono (loadSegments_keepsSegments hwu hrest)⟩
    · rw [← Nat.add_assoc, Nat.add_right_comm]
      exact ih hwu hrest j (Nat.lt_of_succ_lt_succ hj)

/-- Every segment after loader step 2 was there before or is that of a loadable header of the table (R179). -/
theorem loadSegments_segs {i n : Nat} (hload : loadSegments file h i n s = .next t) :
    ∀ g ∈ t.segs, g ∈ s.segs ∨ ∃ j < n, ∃ p, readProgramHeader file (h.headerOffset (i + j)) = some p ∧
      p.headerType = 1 ∧ g = p.segment := by
  induction n generalizing i s with
  | zero => cases hload; exact fun g hg => .inl hg
  | succ n ih =>
    obtain ⟨p, u, hread, hfirst, hrest⟩ := loadSegments_succ_next hload
    intro g hg
    rcases ih hrest g hg with hu | ⟨j, hj, q, hq, hloadable, hseg⟩
    · exact (loadSegment_segs hfirst g hu).imp_right fun ⟨hp, hseg⟩ => ⟨0, Nat.succ_pos n, p, hread, hp, hseg⟩
    · exact .inr ⟨j + 1, Nat.succ_lt_succ hj, q, by rwa [Nat.add_right_comm, Nat.add_assoc] at hq, hloadable, hseg⟩

/-! ## The launch -/

/-- A register write does not change what an address reads. -/
@[simp] theorem byteAt_writeReg (s : State) (i : Reg) (v : Word) (x : Nat) : (s.writeReg i v).byteAt x = s.byteAt x := by
  simp only [State.byteAt, State.writeReg_segs, State.writeReg_mem]

/-- The stack segment of a launch (R174). -/
def stackSegment (base : Word) (limit : Nat) : Segment :=
  { start := base, length := limit, perm := { r := true, w := true, x := false } }

/-- Loader step 4 keeps the segments that are there and adds the stack, zeroed, and no other (R174, R181). -/
theorem placeStack_segs {base : Word} {limit : Nat} (hstack : placeStack base limit s = .next t) :
    KeepsSegments s t ∧ (∀ g, g ∈ t.segs ↔ g = stackSegment base limit ∨ g ∈ s.segs) ∧
      ∀ k < limit, t.byteAt (base.toNat + k) = some 0 := by
  obtain ⟨g, u, hadd, rfl⟩ := placeStack_next hstack
  obtain rfl : g = stackSegment base limit := addSegment_toBits_next hadd
  refine ⟨fun k hk => ?keeps, fun k => ?table, fun k hk => ?zeros⟩
  case keeps => simpa using addSegment_keepsSegments hadd k hk
  case table =>
    obtain ⟨-, -, -, -, -, -, rfl⟩ := addSegment_next.1 hadd
    simp [mem_insertSegment]
  case zeros =>
    have hcovers : (stackSegment base limit).covers (base.toNat + k) = true := Segment.covers_start_add hk
    rw [byteAt_writeReg, byteAt_addSegment hadd, if_pos hcovers]

/-- Settles O50: step 2 walks the table into an empty address space, and step 4 adds the stack to what it leaves. -/
theorem launchAddressSpace : Obligations.LaunchAddressSpace := by
  intro file limit base s hlaunch
  obtain ⟨h, u, hread, -, hsegments, hstack⟩ := loadProcess_next hlaunch
  obtain ⟨hkeeps, htable, hzeros⟩ := placeStack_segs hstack
  have hloaded := loadSegments_loaded (newProcess_wf h.entry) hsegments
  have hsegs := loadSegments_segs hsegments
  simp only [Nat.zero_add] at hloaded hsegs
  refine ⟨h, hread, fun i hi => ?headers, ⟨(htable _).2 (.inl rfl), hzeros⟩, fun g hg => ?noOther⟩
  case headers =>
    obtain ⟨p, hp, hload⟩ := hloaded i hi
    exact ⟨p, hp, fun hloadable => (hload hloadable).mono hkeeps⟩
  case noOther =>
    refine ((htable g).1 hg).imp_right fun hgu => ?_
    exact (hsegs g hgu).resolve_left List.not_mem_nil

/-- The registers of a new Process are zero (R27). -/
theorem readReg_newProcess (entry : Word) (i : Reg) : (newProcess entry).readReg i = 0 := by
  simp [newProcess, State.readReg]

/-- Loader step 4 writes the stack pointer and no other register, and not pc (R172). -/
theorem placeStack_frame {base : Word} {limit : Nat} (hstack : placeStack base limit s = .next t) :
    t.pc = s.pc ∧ t.readReg Config.spIndex = BitVec.ofNat 64 (base.toNat + limit) ∧
      ∀ i : Reg, i ≠ Config.spIndex → t.readReg i = s.readReg i := by
  obtain ⟨g, u, hadd, rfl⟩ := placeStack_next hstack
  obtain ⟨hpc, hregs⟩ := addSegment_frame hadd
  refine ⟨(State.writeReg_pc ..).trans hpc, State.readReg_writeReg_same u (by decide) _, fun i hi => ?_⟩
  rw [State.readReg_writeReg_of_ne u hi, State.readReg_congr hregs]

/-- Settles O49: a new Process has zero registers and the entry point in pc, step 2 touches neither, and step 4 writes the
stack pointer. -/
theorem launchRegisters : Obligations.LaunchRegisters := by
  intro file limit base s hlaunch
  obtain ⟨h, u, hread, -, hsegments, hstack⟩ := loadProcess_next hlaunch
  obtain ⟨hregs, hpc⟩ := loadSegments_frame hsegments
  obtain ⟨hpc', hsp, hothers⟩ := placeStack_frame hstack
  refine ⟨fun i hi => ?zero, ⟨h, hread, hpc'.trans hpc⟩, ?stackTop⟩
  case zero => rw [hothers i hi, State.readReg_congr hregs, readReg_newProcess]
  case stackTop =>
    rw [hsp, BitVec.toNat_ofNat]
    rfl

/-- A file part larger than the segment is found once the segment could be added (R179, log entry 5). -/
theorem loadSegment_of_memory_lt (hp : p.headerType = 1)
    (hadd : addSegment s p.virtualAddress p.memorySize (translateFlags p.flags).toBits = .next (g, t))
    (hsize : p.memorySize < p.fileSize) : loadSegment file p s = .fault .segmentMemoryTooSmall := by
  rw [loadSegment, if_neg (not_not.2 hp), hadd]
  exact if_pos hsize

/-- A file part the file does not hold is found after that (R179, log entry 27). -/
theorem loadSegment_of_file_short (hp : p.headerType = 1)
    (hadd : addSegment s p.virtualAddress p.memorySize (translateFlags p.flags).toBits = .next (g, t))
    (hsize : p.fileSize ≤ p.memorySize) (hfile : file.length < p.fileOffset + p.fileSize) :
    loadSegment file p s = .fault .cannotReadSegment := by
  rw [loadSegment, if_neg (not_not.2 hp), hadd]
  simp only [if_neg (Nat.not_lt.2 hsize), readFile_none.2 hfile]

/-- Settles O54: a launch read every header of the table and loaded the loadable ones, which takes a file part that fits
its segment and that the file holds. -/
theorem launchFailsOnUnreadableHeadersAndSegments : Obligations.LaunchFailsOnUnreadableHeadersAndSegments := by
  intro file h limit base i hread hi
  have hheader : ∀ s, loadProcess file limit base = .next s →
      ∃ p, readProgramHeader file (h.tableOffset + i * h.entrySize) = some p ∧ (p.headerType = 1 → Loaded file p s) := by
    intro s hlaunch
    obtain ⟨h', hread', hheaders, -⟩ := launchAddressSpace file limit base s hlaunch
    obtain rfl := Option.some.inj (hread.symm.trans hread')
    exact hheaders i hi
  refine ⟨fun hshort s hlaunch => ?unreadable, fun p hp hloadable => ⟨fun hbad s hlaunch => ?unloadable,
    fun s ⟨g, t, hadd⟩ => ⟨loadSegment_of_memory_lt hloadable hadd, loadSegment_of_file_short hloadable hadd⟩⟩⟩
  case unreadable =>
    obtain ⟨p, hp, -⟩ := hheader s hlaunch
    simp [readProgramHeader_none hshort] at hp
  case unloadable =>
    obtain ⟨q, hq, hload⟩ := hheader s hlaunch
    obtain rfl := Option.some.inj (hp.symm.trans hq)
    obtain ⟨-, hsize, hfile, -⟩ := hload hloadable
    omega

/-! ## The launch state of reset -/

/-- A launch of a file without program headers is the stack on a new Process (R177). -/
theorem loadProcess_of_no_headers {l : Option Nat} {b : Word} (hread : readFileHeader file = some h)
    (hvalid : validateHeader h = none) (hcount : h.headerCount = 0) :
    loadProcess file l b = placeStack b (l.getD Config.stackDefault) (newProcess h.entry) := by
  simp only [loadProcess, hread, hvalid, hcount, loadSegments, andThen_next]

/-- The file header of an executable that enters at ENTRY and has no program headers (R177, R178, log entry 22). -/
def headerOnlyFile : List Byte :=
  [0x7F, 0x45, 0x4C, 0x46, 2, 1, 1, 0] ++ List.replicate 8 0 ++ [2, 0, 243, 0, 1, 0, 0, 0] ++ [0, 0, 0x40] ++
    List.replicate 37 0

/-- What that file's header says. -/
def headerOnlyHeader : ElfHeader :=
  { magic := [0x7F, 0x45, 0x4C, 0x46], fileClass := 2, dataEncoding := 1, identVersion := 1, osAbi := 0, fileType := 2,
    machine := 243, version := 1, entry := Config.entry, tableOffset := 0, entrySize := 0, headerCount := 0 }

theorem readFileHeader_headerOnlyFile : readFileHeader headerOnlyFile = some headerOnlyHeader := by decide

/-- The stack of reset on a new Process at ENTRY is the state of reset (R27, R172, R174). -/
theorem placeStack_reset :
    placeStack Config.stackBase Config.stackLimit (newProcess Config.entry) = .next State.reset := by
  have hadd : addSegment (newProcess Config.entry) Config.stackBase Config.stackLimit State.resetStack.perm.toBits =
      .next (State.resetStack, (newProcess Config.entry).withSegs [State.resetStack]) :=
    addSegment_next.2 ⟨by decide, by decide, rfl, rfl, by decide, rfl, rfl⟩
  rw [State.resetStack] at hadd
  rw [placeStack, hadd]
  rfl

/-- Settles O48: the fields of reset are the parameters', the stack reads zero since no byte is listed, and the file with
a header only launches to it. -/
theorem resetHoldsTheLaunchValues : Obligations.ResetHoldsTheLaunchValues := by
  refine ⟨rfl, by decide, rfl, fun a hlow hhigh => ?stack, by decide, headerOnlyFile, headerOnlyHeader,
    readFileHeader_headerOnlyFile, rfl, ?launch⟩
  case stack =>
    have hcovers : State.resetStack.covers a = true := (Segment.covers_iff ..).2 ⟨hlow, hhigh⟩
    exact byteAt_of_covers (s := State.reset) (List.mem_singleton.2 rfl) hcovers
  case launch =>
    rw [loadProcess_of_no_headers readFileHeader_headerOnlyFile (by decide) rfl]
    exact placeStack_reset

end Sys2Proof.Machine
end
